-- ==== Sys2Proof/Word.lean ====
section
/-! DEFINITION. The two widths of the block: a byte (00_scope R11) and a 32-bit register or counter
(10_state R16 to R26, 45_statistics R95). -/

namespace Sys2Proof

/-- An unsigned 8-bit value; bit 0 is the least significant (00_scope R11). -/
abbrev Byte := BitVec 8

/-- A 32-bit unsigned register, counter, command word or response value. -/
abbrev Word := BitVec 32

/-- The 32-bit register value of a number; in a legal state it cuts nothing (DEDUCED: assumption 6). -/
abbrev word (n : Nat) : Word := BitVec.ofNat 32 n

end Sys2Proof
end

