-- ==== Sys2Proof/Machine/Checksum.lean ====
section
/-! DEFINITION. The Checksum Engine (44_checksum): the table `T`, the running update and `crc8`. Stateless (R87). -/

namespace Sys2Proof.Machine

/-- One bit of the polynomial division by `x^8 + x^2 + x + 1`, most significant bit first (44_checksum R87, R88). -/
def crcShift (r : Byte) : Byte := if r.msb then (r <<< 1) ^^^ 0x07 else r <<< 1

/-- The checksum table entry `T[i]`: eight shifts of `i` (44_checksum R88). -/
def crcTable (i : Byte) : Byte :=
  crcShift (crcShift (crcShift (crcShift (crcShift (crcShift (crcShift (crcShift i)))))))

/-- The running checksum after one more byte, `T[c XOR v]` (44_checksum R89). -/
def crcUpdate (c v : Byte) : Byte := crcTable (c ^^^ v)

/-- The running checksum from `c` over a byte sequence, in order (44_checksum R89, R90). -/
def crcFrom (c : Byte) (s : List Byte) : Byte := s.foldl crcUpdate c

/-- The checksum of a byte sequence: zero initial value, no final XOR (44_checksum R87, R90). -/
def crc8 (s : List Byte) : Byte := crcFrom 0 s

end Sys2Proof.Machine
end

