-- ==== Sys2Proof/Config.lean ====
section
/-! DEFINITION. The implementation parameters of 00_scope R7, which configurations are valid (R9), and the
configuration inputs of the instance, which the spec leaves OPEN (decisions D6, D9). -/

namespace Sys2Proof

/-- COUNTER_MODE (00_scope R7, 45_statistics R96): what a 32-bit counter does past its largest value. -/
inductive CounterMode where
  | wrap
  | saturate
deriving DecidableEq, Repr, Inhabited

/-- The values on the configuration inputs, valid or not (00_scope R7, 30_encoding R50). The default values are those
of TC1 (R13); they only show that a valid configuration exists (`Config` below), and no definition leans on them. -/
structure Params where
  /-- `D`, the delimiter byte. -/
  delim : Byte := 0x7E
  /-- `E`, the escape byte. -/
  esc : Byte := 0x7D
  /-- `X`, the escape XOR constant. -/
  escXor : Byte := 0x20
  /-- `M`, the capacity of the staging buffer in decoded bytes. -/
  maxFrame : Nat := 8
  /-- `K`, the ring capacity in frames. -/
  ringFrames : Nat := 4
  /-- COUNTER_MODE. -/
  counterMode : CounterMode := .wrap
deriving DecidableEq, Repr, Inhabited

/-- `C = M × K` (00_scope R8). -/
def Params.ringCap (p : Params) : Nat := p.maxFrame * p.ringFrames

/-- A valid configuration (00_scope R9): `X ≠ 0`, `(E XOR X) ≠ D`, `D ≠ E`, `M ≥ 1`, `K ≥ 1`, `M × K ≤ 2^32 − 1`. -/
abbrev Params.Valid (p : Params) : Prop :=
  p.escXor ≠ 0 ∧ p.esc ^^^ p.escXor ≠ p.delim ∧ p.delim ≠ p.esc ∧
    1 ≤ p.maxFrame ∧ 1 ≤ p.ringFrames ∧ p.maxFrame * p.ringFrames ≤ 4294967295

/-- The configuration a block was constructed with. A block is never constructed with an invalid one (00_scope R9,
70_reset R116), so a value of this type carries its validity. -/
structure Config extends Params where
  valid : toParams.Valid := by decide
deriving DecidableEq, Repr, Inhabited

/-- TC1, the spec's test configuration (00_scope R13), for tests and witnesses only. -/
def Config.tc1 : Config :=
  { delim := 0x7E, esc := 0x7D, escXor := 0x20, maxFrame := 8, ringFrames := 4, counterMode := .wrap,
    valid := by decide }

/-- The configuration inputs at power-on: OPEN in the spec (D6, D9), any valid configuration. A constant without a
body, so that nothing can be proved of it but its validity (DESIGN CHOICE, safe: assumption 1). -/
opaque Config.inputs : Config

end Sys2Proof
end

