-- ==== Sys2Proof/Syntax.lean ====
section
/-! DEFINITION. The nine commands of the block (30_encoding R52), one constructor per row of spec/opcode_table.json. -/

namespace Sys2Proof

/-- A command with its operands. A data-in sequence `DIN` is held itself: in a well-formed transaction its length is
`LEN` (30_encoding R53, R56), so `LEN` is not held beside it. -/
inductive Instr where
  /-- `INJECT`: append bytes to the ring (41_ingest R60). -/
  | inject (din : List Byte)
  /-- `BEGIN_READ`: recognise one frame in the ring (42_decode R64). -/
  | beginRead
  /-- `READ`: copy up to `maxLen` staged payload bytes (42_decode R76). -/
  | read (maxLen : BitVec 16)
  /-- `READ_EXACT`: copy exactly `len` staged payload bytes (42_decode R77). -/
  | readExact (len : BitVec 16)
  /-- `END_READ`: close the receive session (42_decode R78). -/
  | endRead
  /-- `BEGIN_WRITE`: open a frame (43_encode R82). -/
  | beginWrite
  /-- `WRITE`: escape, checksum and emit payload bytes (43_encode R83). -/
  | write (din : List Byte)
  /-- `END_WRITE`: append the checksum and the closing delimiter (43_encode R84). -/
  | endWrite
  /-- `STAT`: read counter number `k` (45_statistics R100). -/
  | stat (k : Fin 16)
deriving DecidableEq, Repr

end Sys2Proof
end

