-- ==== Sys2Proof/WellFormed.lean ====
section
/-! DEFINITION. Which commands have an encoding: `LEN` is a 16-bit field, so a data-in sequence holds at most
65535 bytes (30_encoding R53, decision D28). Every other operand is in range by its type. -/

namespace Sys2Proof

/-- The command can be written as one transaction (30_encoding R53). -/
def Instr.wf : Instr → Bool
  | .inject din => decide (din.length ≤ 65535)
  | .beginRead => true
  | .read _ => true
  | .readExact _ => true
  | .endRead => true
  | .beginWrite => true
  | .write din => decide (din.length ≤ 65535)
  | .endWrite => true
  | .stat _ => true

end Sys2Proof
end

