-- ==== Sys2Proof/Decode.lean ====
section
/-! DEFINITION. The command interface's encoding (30_encoding R51 to R57): what the command port carries, the fields
of the command word, the decoder, total on every transaction, and the encoder. -/

namespace Sys2Proof

/-- What the host puts on the command port for one command: `CMD` and `DIN` (30_encoding R50). -/
structure Transaction where
  cmd : Word
  din : List Byte
deriving DecidableEq, Repr

/-- The opcodes that name a command (30_encoding R52). -/
inductive Opcode where
  | inject | beginRead | read | readExact | endRead | beginWrite | write | endWrite | stat
deriving DecidableEq, Repr

/-- Why a transaction is malformed: the six cases of 30_encoding R56, in its order. -/
inductive Malformed where
  /-- Case 1: `OP` is `0x0` or `0xA` to `0xF`. -/
  | reservedOpcode
  /-- Case 2: `RES ≠ 0`. -/
  | reservedField
  /-- Case 3: a nonzero `ARG` where the command takes none. -/
  | argNotZero
  /-- Case 4: a counter number above 15. -/
  | counterNumber
  /-- Case 5: `DIN` is not `LEN` bytes long. -/
  | dataLength
  /-- Case 6: a nonempty `DIN` where the command takes no data. -/
  | dataNotEmpty
deriving DecidableEq, Repr

/-- `OP = CMD[31:28]` (30_encoding R51). -/
def opField (cmd : Word) : BitVec 4 := cmd.extractLsb' 28 4

/-- `RES = CMD[27:16]` (30_encoding R51). -/
def resField (cmd : Word) : BitVec 12 := cmd.extractLsb' 16 12

/-- `ARG = CMD[15:0]` (30_encoding R51). -/
def argField (cmd : Word) : BitVec 16 := cmd.extractLsb' 0 16

/-- The opcode map of 30_encoding R52. -/
def Opcode.ofNumber : Nat → Option Opcode
  | 0x1 => some .inject
  | 0x2 => some .beginRead
  | 0x3 => some .read
  | 0x4 => some .readExact
  | 0x5 => some .endRead
  | 0x6 => some .beginWrite
  | 0x7 => some .write
  | 0x8 => some .endWrite
  | 0x9 => some .stat
  | _ => none

/-- The number of an opcode (30_encoding R52). -/
def Opcode.number : Opcode → BitVec 4
  | .inject => 0x1
  | .beginRead => 0x2
  | .read => 0x3
  | .readExact => 0x4
  | .endRead => 0x5
  | .beginWrite => 0x6
  | .write => 0x7
  | .endWrite => 0x8
  | .stat => 0x9

/-- A command whose `ARG` is the length of its data (30_encoding R53; R56 case 5). -/
def decodeData (make : List Byte → Instr) (arg : BitVec 16) (din : List Byte) : Except Malformed Instr :=
  if din.length = arg.toNat then .ok (make din) else .error .dataLength

/-- A command that takes an operand in `ARG` and no data (30_encoding R53; R56 case 6). -/
def decodeArg (i : Instr) (din : List Byte) : Except Malformed Instr :=
  match din with
  | [] => .ok i
  | _ :: _ => .error .dataNotEmpty

/-- A command that takes neither operand nor data (30_encoding R53; R56 cases 3 and 6). -/
def decodePlain (i : Instr) (arg : BitVec 16) (din : List Byte) : Except Malformed Instr :=
  if arg = 0 then decodeArg i din else .error .argNotZero

/-- `STAT`: a counter number of 0 to 15 and no data (30_encoding R53; R56 cases 4 and 6). -/
def decodeStat (arg : BitVec 16) (din : List Byte) : Except Malformed Instr :=
  if h : arg.toNat < 16 then decodeArg (.stat ⟨arg.toNat, h⟩) din else .error .counterNumber

/-- The operands of an opcode (30_encoding R53, R56). -/
def decodeOperands (op : Opcode) (arg : BitVec 16) (din : List Byte) : Except Malformed Instr :=
  match op with
  | .inject => decodeData .inject arg din
  | .beginRead => decodePlain .beginRead arg din
  | .read => decodeArg (.read arg) din
  | .readExact => decodeArg (.readExact arg) din
  | .endRead => decodePlain .endRead arg din
  | .beginWrite => decodePlain .beginWrite arg din
  | .write => decodeData .write arg din
  | .endWrite => decodePlain .endWrite arg din
  | .stat => decodeStat arg din

/-- The command a transaction stands for, or why it is malformed (30_encoding R52, R53, R56). Total on all `2^32`
words and every data-in sequence (R57). -/
def decode (t : Transaction) : Except Malformed Instr :=
  match Opcode.ofNumber (opField t.cmd).toNat with
  | none => .error .reservedOpcode
  | some op =>
    if resField t.cmd = 0 then decodeOperands op (argField t.cmd) t.din else .error .reservedField

/-- The opcode of a command (30_encoding R52). -/
def Instr.opcode : Instr → Opcode
  | .inject _ => .inject
  | .beginRead => .beginRead
  | .read _ => .read
  | .readExact _ => .readExact
  | .endRead => .endRead
  | .beginWrite => .beginWrite
  | .write _ => .write
  | .endWrite => .endWrite
  | .stat _ => .stat

/-- The `ARG` a command is written with (30_encoding R53, R58). -/
def Instr.arg : Instr → BitVec 16
  | .inject din => BitVec.ofNat 16 din.length
  | .beginRead => 0
  | .read maxLen => maxLen
  | .readExact len => len
  | .endRead => 0
  | .beginWrite => 0
  | .write din => BitVec.ofNat 16 din.length
  | .endWrite => 0
  | .stat k => BitVec.ofNat 16 k.val

/-- The data a command is written with (30_encoding R53, R58). -/
def Instr.data : Instr → List Byte
  | .inject din => din
  | .beginRead => []
  | .read _ => []
  | .readExact _ => []
  | .endRead => []
  | .beginWrite => []
  | .write din => din
  | .endWrite => []
  | .stat _ => []

/-- `CMD = {OP, RES, ARG}` with `RES = 0` (30_encoding R51). -/
def commandWord (op : Opcode) (arg : BitVec 16) : Word := op.number ++ (0 : BitVec 12) ++ arg

/-- The transaction a command is written as (30_encoding R58). -/
def encode (i : Instr) : Transaction := { cmd := commandWord i.opcode i.arg, din := i.data }

/-- `n` bytes of a number, its least significant byte first. -/
def bytesOf (w : Nat) : Nat → List Byte
  | 0 => []
  | n + 1 => BitVec.ofNat 8 w :: bytesOf (w / 256) n

/-- The number of data bytes the command word asks for: `LEN` for `INJECT` and `WRITE`, else none (30_encoding R53). -/
def dataLength (cmd : Word) : Nat :=
  match Opcode.ofNumber (opField cmd).toNat with
  | some .inject => (argField cmd).toNat
  | some .write => (argField cmd).toNat
  | _ => 0

/-- A transaction from one number: bits 31 to 0 are `CMD`, byte `j` of `DIN` is bits `39 + 8j` to `32 + 8j`, and bits
from `nbits` up are 0, so a word of 32 bits gives `LEN` data bytes of zero. The block fixes no byte order (20_memory R37);
this numbering serves the opcode table's words only. -/
def tableTransaction (nbits w : Nat) : Transaction :=
  let cmd : Word := BitVec.ofNat 32 (w % 2 ^ nbits)
  { cmd := cmd, din := bytesOf (w % 2 ^ nbits / 2 ^ 32) (dataLength cmd) }

/-- The command the decoder reads from an opcode-table word of `nbits` bits. -/
def decodeTableWord (nbits w : Nat) : Option Instr :=
  match decode (tableTransaction nbits w) with
  | .ok i => some i
  | .error _ => none

end Sys2Proof
end

