-- ==== Sys2Proof/Machine/State.lean ====
section
/-! DEFINITION. Everything the spec gives the block to hold (10_state R14 to R26), its interface ports (30_encoding R50)
and the state after reset (10_state R31). -/

namespace Sys2Proof.Machine

/-- One of the two byte memories (20_memory R32), as the list of its cells that are not 0, addresses strictly rising.
A cell that is not listed reads 0 (DESIGN CHOICE, unsafe: assumption 2). -/
abbrev Memory := List Host.Cell

/-- The ReceiveSession (10_state R22). -/
inductive RxState where
  | notReading
  | reading
deriving DecidableEq, Repr

/-- The TransmitSession (10_state R23). -/
inductive TxState where
  | notWriting
  | writing
deriving DecidableEq, Repr

/-- The names of the sixteen statistics counters, in the order of their numbers (45_statistics R95). -/
inductive Counter where
  | rxFalseStarts
  | rxRejectedEncodingError
  | rxRejectedTooBig
  | rxRejectedTooSmall
  | rxRejectedBadCrc8
  | rxFrameCount
  | minRxFrameSize
  | maxRxFrameSize
  | readOverreach
  | readDiscardFrameCount
  | readDiscardByteCount
  | readByteCount
  | writeFrameMinSize
  | writeFrameMaxSize
  | writeFrameCount
  | writeByteCount
deriving DecidableEq, Repr

/-- The statistics counters, 32 bits each (10_state R26, 45_statistics R95). -/
structure Stats where
  rxFalseStarts : Word
  rxRejectedEncodingError : Word
  rxRejectedTooBig : Word
  rxRejectedTooSmall : Word
  rxRejectedBadCrc8 : Word
  rxFrameCount : Word
  minRxFrameSize : Word
  maxRxFrameSize : Word
  readOverreach : Word
  readDiscardFrameCount : Word
  readDiscardByteCount : Word
  readByteCount : Word
  writeFrameMinSize : Word
  writeFrameMaxSize : Word
  writeFrameCount : Word
  writeByteCount : Word
deriving DecidableEq, Repr

/-- The reset values of 45_statistics R95: the two minima at `0xFFFFFFFF`, every other counter 0. -/
def Stats.reset : Stats :=
  { rxFalseStarts := 0, rxRejectedEncodingError := 0, rxRejectedTooBig := 0, rxRejectedTooSmall := 0,
    rxRejectedBadCrc8 := 0, rxFrameCount := 0, minRxFrameSize := 0xFFFFFFFF, maxRxFrameSize := 0,
    readOverreach := 0, readDiscardFrameCount := 0, readDiscardByteCount := 0, readByteCount := 0,
    writeFrameMinSize := 0xFFFFFFFF, writeFrameMaxSize := 0, writeFrameCount := 0, writeByteCount := 0 }

/-- The status of a response (30_encoding R54). -/
inductive Status where
  | ok
  | notReady
  | noFrame
  | tooSmall
  | badEncoding
  | badCrc8
  | tooBig
  | notEnough
  | illegalCommand
deriving DecidableEq, Repr

/-- The response to one command, `(STATUS, VALUE, DOUT)` (30_encoding R50, R55). -/
structure Response where
  status : Status
  value : Word
  dout : List Byte
deriving DecidableEq, Repr

/-- What the host presents to the block: one command transaction, or a reset request together with the values then
standing on the configuration inputs (30_encoding R50, 70_reset R117). -/
inductive HostEvent where
  | command (t : Transaction)
  | reset (p : Params)
deriving DecidableEq, Repr

/-- The block and its ports. -/
structure State where
  /-- The configuration sampled at the last reset (10_state R14, 70_reset R117). -/
  cfg : Config
  /-- The ring buffer's cells (10_state R15). -/
  ring : Memory
  /-- The ring index of the oldest unread byte (10_state R16). -/
  tail : Word
  /-- The number of unread bytes in the ring (10_state R17). -/
  unread : Word
  /-- The staging buffer's cells (10_state R19). -/
  stage : Memory
  /-- The payload size of the staged frame (10_state R20). -/
  stageSize : Word
  /-- The read cursor into the staged payload (10_state R21). -/
  cursor : Word
  /-- The ReceiveSession (10_state R22). -/
  rxState : RxState
  /-- The TransmitSession (10_state R23). -/
  txState : TxState
  /-- The encoder's running checksum (10_state R24). -/
  txCrc : Byte
  /-- The encoder's on-wire byte counter (10_state R25). -/
  txSize : Word
  /-- The statistics counters (10_state R26). -/
  stats : Stats
  /-- The model's own field: what the host presents next, oldest first (30_encoding R50; DESIGN CHOICE, safe:
  assumption 3). -/
  host : List HostEvent
  /-- The model's own field: the responses given so far, oldest first (30_encoding R50; DESIGN CHOICE, safe:
  assumption 3). -/
  responses : List Response
  /-- The model's own field: the bytes the sink port has carried so far, in order (43_encode R80; DESIGN CHOICE,
  safe: assumption 3). -/
  sink : List Byte
deriving DecidableEq, Repr

/-- Why the machine stops with a fault. The spec's block has none (60_exceptions R102). -/
inductive Fault where
  /-- Raised by `READ`, `READ_EXACT` and `END_READ` while Reading with `cursor > stageSize`. The spec rules such a state
  out (10_state R21), and `stageSize − cursor` is then no number of bytes. Safe: the model stops, and no run reaches the
  state (DESIGN CHOICE, assumption 4). -/
  | cursorPastPayload
  /-- Raised by `READ` and `READ_EXACT` when a byte to copy lies outside `stage[0 .. M − 1]`, an address that does not
  exist (20_memory R32). The spec rules such a state out (10_state R20, 20_memory R34). Safe: the model stops, and no run
  reaches the state (DESIGN CHOICE, assumption 4). -/
  | stagingIndexOutOfRange
deriving DecidableEq, Repr

/-- Why the machine gives an event no meaning. -/
inductive Refusal where
  /-- Raised by `exec` for a command that has no meaning yet: none is left. Safe: the model stops. -/
  | notModelled (mnemonic : String)
  /-- Raised by `step` for a reset request whose configuration fails 00_scope R9: the block does not exist for it
  (70_reset R116, decision D8). Safe: the model stops (DESIGN CHOICE, assumption 5). -/
  | invalidConfiguration
deriving DecidableEq, Repr

/-- The block after a reset that samples `cfg` (10_state R31, 70_reset R117), with nothing presented, answered or
emitted. -/
def State.resetWith (cfg : Config) : State :=
  { cfg := cfg, ring := [], tail := 0, unread := 0, stage := [], stageSize := 0, cursor := 0,
    rxState := .notReading, txState := .notWriting, txCrc := 0, txSize := 0, stats := Stats.reset,
    host := [], responses := [], sink := [] }

/-- The block right after reset, constructed with the configuration on its inputs (10_state R31, assumption 1). -/
def State.reset : State := State.resetWith Config.inputs

end Sys2Proof.Machine
end

