-- ==== Sys2Proof/Machine/Ops.lean ====
section
/-! DEFINITION. The named operations every command is written with (00_scope R12): the two memories, the ring's index
arithmetic, the statistics updates, the sink, the response, and reset. -/

namespace Sys2Proof.Machine

/-! ## Memory -/

/-- The byte at an address: the listed one, else 0 (DESIGN CHOICE, unsafe: assumption 2). -/
def Memory.read : Memory → Nat → Byte
  | [], _ => 0
  | (k, v) :: m, a => if k = a then v else Memory.read m a

/-- A cell in front of a list, left out when it holds what an unlisted cell reads as. -/
def Memory.put (a : Nat) (b : Byte) (m : Memory) : Memory := if b = 0 then m else (a, b) :: m

/-- Write one byte, keeping the canonical form. -/
def Memory.write : Memory → Nat → Byte → Memory
  | [], a, b => Memory.put a b []
  | (k, v) :: m, a, b =>
    if a < k then Memory.put a b ((k, v) :: m)
    else if a = k then Memory.put a b m
    else (k, v) :: Memory.write m a b

/-- Every listed address is at least `lo`, addresses strictly rise and no listed byte is 0. -/
def Memory.wfFrom : Nat → Memory → Bool
  | _, [] => true
  | lo, (k, v) :: m => decide (lo ≤ k) && decide (v ≠ 0) && Memory.wfFrom (k + 1) m

/-- The canonical form: addresses strictly rising, no entry equal to what an unlisted address reads as. -/
def Memory.wf (m : Memory) : Bool := Memory.wfFrom 0 m

/-- Every listed address is below `n`: the memory has the cells `0 .. n − 1` (20_memory R32). -/
def Memory.within (n : Nat) (m : Memory) : Bool := m.all fun c => decide (c.1 < n)

/-! ## Ring buffer and staging buffer -/

/-- `advance(i, by) = (i + by) mod C` (20_memory R33). -/
def State.advance (s : State) (i offset : Nat) : Nat := (i + offset) % s.cfg.ringCap

/-- `RingRead(i)` (00_scope R12). -/
def State.ringRead (s : State) (i : Nat) : Byte := Memory.read s.ring i

/-- `RingWrite(i, b)` (00_scope R12). -/
def State.ringWrite (s : State) (i : Nat) (b : Byte) : State := { s with ring := Memory.write s.ring i b }

/-- `StageRead(i)` (00_scope R12). -/
def State.stageRead (s : State) (i : Nat) : Byte := Memory.read s.stage i

/-- `StageWrite(i, b)` (00_scope R12). -/
def State.stageWrite (s : State) (i : Nat) (b : Byte) : State := { s with stage := Memory.write s.stage i b }

/-- The unread bytes, oldest first: `RingRead((tail + j) mod C)` for `j = 0 .. unread − 1` (10_state R18). -/
def State.unreadBytes (s : State) : List Byte :=
  (List.range s.unread.toNat).map fun j => s.ringRead (s.advance s.tail.toNat j)

/-- Append one byte at the head index `(tail + unread) mod C`, or drop it when the ring is full (41_ingest R60). -/
def State.ringAppend (s : State) (b : Byte) : State :=
  if s.unread.toNat < s.cfg.ringCap then
    let s' := s.ringWrite (s.advance s.tail.toNat s.unread.toNat) b
    { s' with unread := word (s.unread.toNat + 1) }
  else s

/-- `Consume(n)`: `tail <- (t0 + n) mod C; unread <- u0 − n` (42_decode R64). -/
def State.consume (s : State) (n : Nat) : State :=
  { s with tail := word (s.advance s.tail.toNat n), unread := word (s.unread.toNat - n) }

/-- Rollback: `tail` and `unread` as they were at the start of `BEGIN_READ`, and nothing else (42_decode R73). -/
def State.rollback (s : State) (t0 u0 : Word) : State := { s with tail := t0, unread := u0 }

/-! ## Statistics -/

/-- The value of a counter. -/
def Stats.get (x : Stats) : Counter → Word
  | .rxFalseStarts => x.rxFalseStarts
  | .rxRejectedEncodingError => x.rxRejectedEncodingError
  | .rxRejectedTooBig => x.rxRejectedTooBig
  | .rxRejectedTooSmall => x.rxRejectedTooSmall
  | .rxRejectedBadCrc8 => x.rxRejectedBadCrc8
  | .rxFrameCount => x.rxFrameCount
  | .minRxFrameSize => x.minRxFrameSize
  | .maxRxFrameSize => x.maxRxFrameSize
  | .readOverreach => x.readOverreach
  | .readDiscardFrameCount => x.readDiscardFrameCount
  | .readDiscardByteCount => x.readDiscardByteCount
  | .readByteCount => x.readByteCount
  | .writeFrameMinSize => x.writeFrameMinSize
  | .writeFrameMaxSize => x.writeFrameMaxSize
  | .writeFrameCount => x.writeFrameCount
  | .writeByteCount => x.writeByteCount

/-- The counters with one of them replaced. -/
def Stats.set (x : Stats) (c : Counter) (v : Word) : Stats :=
  match c with
  | .rxFalseStarts => { x with rxFalseStarts := v }
  | .rxRejectedEncodingError => { x with rxRejectedEncodingError := v }
  | .rxRejectedTooBig => { x with rxRejectedTooBig := v }
  | .rxRejectedTooSmall => { x with rxRejectedTooSmall := v }
  | .rxRejectedBadCrc8 => { x with rxRejectedBadCrc8 := v }
  | .rxFrameCount => { x with rxFrameCount := v }
  | .minRxFrameSize => { x with minRxFrameSize := v }
  | .maxRxFrameSize => { x with maxRxFrameSize := v }
  | .readOverreach => { x with readOverreach := v }
  | .readDiscardFrameCount => { x with readDiscardFrameCount := v }
  | .readDiscardByteCount => { x with readDiscardByteCount := v }
  | .readByteCount => { x with readByteCount := v }
  | .writeFrameMinSize => { x with writeFrameMinSize := v }
  | .writeFrameMaxSize => { x with writeFrameMaxSize := v }
  | .writeFrameCount => { x with writeFrameCount := v }
  | .writeByteCount => { x with writeByteCount := v }

/-- The counter with a given number (45_statistics R95). -/
def Counter.ofNumber (k : Fin 16) : Counter :=
  match k.val with
  | 0 => .rxFalseStarts
  | 1 => .rxRejectedEncodingError
  | 2 => .rxRejectedTooBig
  | 3 => .rxRejectedTooSmall
  | 4 => .rxRejectedBadCrc8
  | 5 => .rxFrameCount
  | 6 => .minRxFrameSize
  | 7 => .maxRxFrameSize
  | 8 => .readOverreach
  | 9 => .readDiscardFrameCount
  | 10 => .readDiscardByteCount
  | 11 => .readByteCount
  | 12 => .writeFrameMinSize
  | 13 => .writeFrameMaxSize
  | 14 => .writeFrameCount
  | _ => .writeByteCount  -- number 15, the only one left

/-- Add to a 32-bit counter under COUNTER_MODE (45_statistics R96; `txSize` too, 10_state R25). -/
def addCounting (mode : CounterMode) (x : Word) (a : Nat) : Word :=
  match mode with
  | .wrap => word ((x.toNat + a) % 4294967296)
  | .saturate => word (min (x.toNat + a) 4294967295)

/-- `Count(name, a)` (45_statistics R96). -/
def State.count (s : State) (c : Counter) (a : Nat) : State :=
  { s with stats := s.stats.set c (addCounting s.cfg.counterMode (s.stats.get c) a) }

/-- `Lower(name, v)`: the smaller of the two (45_statistics R97). -/
def State.lower (s : State) (c : Counter) (v : Word) : State :=
  { s with stats := s.stats.set c (if v < s.stats.get c then v else s.stats.get c) }

/-- `Raise(name, v)`: the larger of the two (45_statistics R97). -/
def State.raise (s : State) (c : Counter) (v : Word) : State :=
  { s with stats := s.stats.set c (if s.stats.get c < v then v else s.stats.get c) }

/-! ## Sink and response -/

/-- `Emit(b)`: append a byte to the sink port's stream, which takes every byte (43_encode R80; DEDUCED, safe:
assumption 7). -/
def State.emit (s : State) (b : Byte) : State := { s with sink := s.sink ++ [b] }

/-- Add to the encoder's on-wire byte counter, under COUNTER_MODE (10_state R25). -/
def State.addTxSize (s : State) (a : Nat) : State :=
  { s with txSize := addCounting s.cfg.counterMode s.txSize a }

/-- `Respond(status, value, data)`: the one response of a command (30_encoding R55). -/
def State.respond (s : State) (status : Status) (value : Word) (data : List Byte) : State :=
  { s with responses := s.responses ++ [{ status := status, value := value, dout := data }] }

/-- The number of a status on the response port (30_encoding R54). -/
def Status.code : Status → BitVec 8
  | .ok => 0x00
  | .notReady => 0x01
  | .noFrame => 0x02
  | .tooSmall => 0x03
  | .badEncoding => 0x04
  | .badCrc8 => 0x05
  | .tooBig => 0x06
  | .notEnough => 0x07
  | .illegalCommand => 0x08

/-! ## Error results and reset

The block takes no exception and returns from none (60_exceptions R102, R106): a command that fails answers, and that is
all an error result does beyond what the command's own rule writes (R105). -/

/-- An error result: a non-`OK` status with `VALUE = 0` and `DOUT` empty (60_exceptions R103, R105; 30_encoding R55). -/
def State.fail (s : State) (status : Status) : State := s.respond status 0 []

/-- The reset input: sample the configuration and set every piece of state to its reset value. The ports keep what the
outside has already seen: reset gives no response and emits nothing (70_reset R117, R118). -/
def State.applyReset (s : State) (cfg : Config) : State :=
  { State.resetWith cfg with host := s.host, responses := s.responses, sink := s.sink }

end Sys2Proof.Machine
end

