-- ==== Sys2Proof/Machine/Flags.lean ====
section
/-! DEFINITION. The block's status flags are the two session states (10_state R30); each command's precondition tests
one of them, and a command in the wrong session state answers `NotReady` with no other effect (60_exceptions R103). -/

namespace Sys2Proof.Machine

/-- The three outcomes of a command on this machine. -/
abbrev Result := Host.Outcome State Fault Refusal

/-- Go on only while `rxState = NotReading` (42_decode R64, R65). -/
def whenNotReading (s : State) (body : Result) : Result :=
  match s.rxState with
  | .notReading => body
  | .reading => .next (s.fail .notReady)

/-- Go on only while `rxState = Reading` (42_decode R76, R77, R78). -/
def whenReading (s : State) (body : Result) : Result :=
  match s.rxState with
  | .reading => body
  | .notReading => .next (s.fail .notReady)

/-- Go on only while `txState = NotWriting` (43_encode R82). -/
def whenNotWriting (s : State) (body : Result) : Result :=
  match s.txState with
  | .notWriting => body
  | .writing => .next (s.fail .notReady)

/-- Go on only while `txState = Writing` (43_encode R83, R84). -/
def whenWriting (s : State) (body : Result) : Result :=
  match s.txState with
  | .writing => body
  | .notWriting => .next (s.fail .notReady)

end Sys2Proof.Machine
end

