-- ==== Sys2Proof/Machine/Operands.lean ====
section
/-! DEFINITION. What the operands of the read commands select (42_decode R76 to R78): the payload bytes left, the bytes
copied, and the copy that `READ` and `READ_EXACT` share. `ARG` is zero-extended (30_encoding R53), so the operand's
value is its `toNat`. -/

namespace Sys2Proof.Machine

/-- `rem = stageSize − cursor`, the payload bytes not read yet; none in a state with `cursor > stageSize`, which
10_state R21 rules out. -/
def State.payloadLeft (s : State) : Option Nat :=
  if s.cursor.toNat ≤ s.stageSize.toNat then some (s.stageSize.toNat - s.cursor.toNat) else none

/-- `[StageRead(cursor + j) for j in 0 .. k−1]`; none when one of these cells does not exist (20_memory R32, R34). -/
def State.stagedBytes (s : State) (k : Nat) : Option (List Byte) :=
  if k = 0 ∨ s.cursor.toNat + k ≤ s.cfg.maxFrame then
    some ((List.range k).map fun j => s.stageRead (s.cursor.toNat + j))
  else none

/-- The effects of a copy of `k` bytes when `wanted` were asked for: the cursor, `readByteCount`, and `readOverreach`
on a short read (42_decode R76). -/
def State.afterCopy (s : State) (k wanted : Nat) : State :=
  let moved := { s with cursor := word (s.cursor.toNat + k) }
  let counted := moved.count .readByteCount k
  if k < wanted then counted.count .readOverreach 1 else counted

/-- The body of `READ` up to its response (42_decode R76, R77): the bytes copied and the state left, or the fault of a
state that 10_state R20 and R21 rule out. -/
def State.copyOut (s : State) (wanted : Nat) : Except Fault (List Byte × State) :=
  match s.payloadLeft with
  | none => .error .cursorPastPayload
  | some rem =>
    match s.stagedBytes (min wanted rem) with
    | none => .error .stagingIndexOutOfRange
    | some bytes => .ok (bytes, s.afterCopy (min wanted rem) wanted)

end Sys2Proof.Machine
end

