-- ==== Sys2Proof/Machine/FrameDecoder.lean ====
section
/-! DEFINITION. The Frame Decoder: `BEGIN_READ`, `READ`, `READ_EXACT` and `END_READ` (42_decode). -/

namespace Sys2Proof.Machine

/-! ## The scan of BEGIN_READ -/

/-- The working values of one `BEGIN_READ` (10_state R29), each at its value on entry (42_decode R64). -/
structure Scan where
  /-- Delimiters seen. -/
  limitCount : Nat := 0
  /-- The pending-escape flag. -/
  pend : Bool := false
  /-- Decoded bytes stored. -/
  dlen : Nat := 0
  /-- The running checksum over the decoded bytes. -/
  rxCrc : Byte := 0
  /-- Bytes scanned. -/
  n : Nat := 0
deriving DecidableEq, Repr

/-- How a scan ends (42_decode R64): the second delimiter, a decoded byte too many, or no unread byte left. -/
inductive ScanEnd where
  | frameEnd
  | tooBig
  | exhausted
deriving DecidableEq, Repr

/-- What one byte does to a scan: it goes on, or it ends here. -/
inductive ScanStep where
  | more (w : Scan) (s : State)
  | stop (e : ScanEnd) (w : Scan) (s : State)
deriving DecidableEq, Repr

/-- A decoded byte: `TooBig` when `M` are stored already, else stored and accumulated (42_decode R64, R68, R71). -/
def scanStore (v : Byte) (w : Scan) (s : State) : ScanStep :=
  if w.dlen = s.cfg.maxFrame then .stop .tooBig w s
  else .more { w with dlen := w.dlen + 1, rxCrc := crcUpdate w.rxCrc v } (s.stageWrite w.dlen v)

/-- A content byte: the pending test comes before the escape-byte test (42_decode R67). -/
def scanContent (b : Byte) (w : Scan) (s : State) : ScanStep :=
  if w.pend then scanStore (b ^^^ s.cfg.escXor) { w with pend := false } s
  else if b = s.cfg.esc then .more { w with pend := true } s
  else scanStore b w s

/-- One scanned byte, counted in `n` and classified: delimiter in every position, else stray byte before the first
delimiter, else content (42_decode R64, R66). -/
def scanByte (b : Byte) (w0 : Scan) (s : State) : ScanStep :=
  let w := { w0 with n := w0.n + 1 }
  if b = s.cfg.delim then
    if w.limitCount + 1 = 2 then .stop .frameEnd { w with limitCount := w.limitCount + 1 } s
    else .more { w with limitCount := w.limitCount + 1 } s
  else if w.limitCount = 0 then .more w (s.count .rxFalseStarts 1)
  else scanContent b w s

/-- The scan over the unread bytes, oldest first (42_decode R64). It writes `stage` and `rxFalseStarts` only. -/
def scanBytes : List Byte → Scan → State → ScanEnd × Scan × State
  | [], w, s => (.exhausted, w, s)
  | b :: bs, w, s =>
    match scanByte b w s with
    | .more w' s' => scanBytes bs w' s'
    | .stop e w' s' => (e, w', s')

/-- A frame accepted: the payload size is the decoded length less the check byte, and the session opens
(42_decode R64, R70). -/
def acceptFrame (dlen : Nat) (s : State) : State :=
  let size := word (dlen - 1)
  let staged := { s with stageSize := size, cursor := 0 }
  let counted := ((staged.lower .minRxFrameSize size).raise .maxRxFrameSize size).count .rxFrameCount 1
  { counted with rxState := .reading }.respond .ok size []

/-- The checks at the second delimiter, in order; the first that holds decides (42_decode R69). -/
def closeFrame (w : Scan) (s : State) : State :=
  let s := s.consume w.n
  if w.pend then (s.count .rxRejectedEncodingError 1).fail .badEncoding
  else if w.dlen < 1 then (s.count .rxRejectedTooSmall 1).fail .tooSmall
  else if w.rxCrc ≠ 0 then (s.count .rxRejectedBadCrc8 1).fail .badCrc8
  else acceptFrame w.dlen s

/-- The result of a scan that began with `tail = t0` and `unread = u0` (42_decode R64, R71, R73). -/
def finishScan (t0 u0 : Word) (r : ScanEnd × Scan × State) : State :=
  match r with
  | (.frameEnd, w, s) => closeFrame w s
  | (.tooBig, w, s) => ((s.consume w.n).count .rxRejectedTooBig 1).fail .tooBig
  | (.exhausted, _, s) => (s.rollback t0 u0).fail .noFrame

/-! ## The four commands -/

/-- `BEGIN_READ` (42_decode R64). -/
def execBeginRead (s : State) : Result :=
  whenNotReading s (.next (finishScan s.tail s.unread (scanBytes s.unreadBytes {} s)))

/-- `READ` (42_decode R76): a short read is no error. -/
def execRead (maxLen : BitVec 16) (s : State) : Result :=
  whenReading s <|
    match s.copyOut maxLen.toNat with
    | .error f => .fault f
    | .ok (bytes, s') => .next (s'.respond .ok (word bytes.length) bytes)

/-- `READ_EXACT` (42_decode R77): the body of `READ`, all its effects kept, and `NotEnough` on a short read. -/
def execReadExact (len : BitVec 16) (s : State) : Result :=
  whenReading s <|
    match s.copyOut len.toNat with
    | .error f => .fault f
    | .ok (bytes, s') =>
      .next (s'.respond (if bytes.length < len.toNat then .notEnough else .ok) (word bytes.length) bytes)

/-- What `END_READ` counts when `rem` payload bytes are left unread (42_decode R78). -/
def State.discard (s : State) (rem : Nat) : State :=
  if 0 < rem then
    ((s.count .readDiscardFrameCount 1).count .readDiscardByteCount rem).count .readByteCount rem
  else s

/-- `END_READ` (42_decode R78): the rest is discarded and counted, and the session closes. -/
def execEndRead (s : State) : Result :=
  whenReading s <|
    match s.payloadLeft with
    | none => .fault .cursorPastPayload
    | some rem => .next ({ s.discard rem with rxState := .notReading }.respond .ok 0 [])

end Sys2Proof.Machine
end

