-- ==== Sys2Proof/Machine/FrameEncoder.lean ====
section
/-! DEFINITION. The Frame Encoder: `BEGIN_WRITE`, `WRITE` and `END_WRITE` (43_encode). -/

namespace Sys2Proof.Machine

/-- `EscWrite(b)` (43_encode R81): checksum over the raw byte, then one byte or an escape sequence on the sink. -/
def State.escWrite (s : State) (b : Byte) : State :=
  let s := { s with txCrc := crcUpdate s.txCrc b }
  if b = s.cfg.esc ∨ b = s.cfg.delim then
    ((s.emit s.cfg.esc).emit (b ^^^ s.cfg.escXor)).addTxSize 2
  else (s.emit b).addTxSize 1

/-- `BEGIN_WRITE` (43_encode R82). -/
def execBeginWrite (s : State) : Result :=
  whenNotWriting s <|
    .next ({ { s with txCrc := 0 }.emit s.cfg.delim with txSize := 1, txState := .writing }.respond .ok 0 [])

/-- `WRITE` (43_encode R83): `writeByteCount` takes the payload length, not the on-wire length. -/
def execWrite (din : List Byte) (s : State) : Result :=
  whenWriting s <|
    .next (((din.foldl State.escWrite s).count .writeByteCount din.length).respond .ok 0 [])

/-- `END_WRITE` up to its statistics: the check byte through the escaping path, then the bare closing delimiter
(43_encode R84). -/
def State.closeWire (s : State) : State :=
  (((s.escWrite s.txCrc).count .writeByteCount 1).emit s.cfg.delim).addTxSize 1

/-- The frame statistics of `END_WRITE`, from the frame's on-wire size (43_encode R84). -/
def State.recordFrame (s : State) : State :=
  ((s.count .writeFrameCount 1).lower .writeFrameMinSize s.txSize).raise .writeFrameMaxSize s.txSize

/-- `END_WRITE` (43_encode R84). -/
def execEndWrite (s : State) : Result :=
  whenWriting s <|
    .next ({ s.closeWire.recordFrame with txState := .notWriting }.respond .ok 0 [])

end Sys2Proof.Machine
end

