-- ==== Sys2Proof/Machine/Ingest.lean ====
section
/-! DEFINITION. The Ring Buffer Ingestor: `INJECT` (41_ingest). -/

namespace Sys2Proof.Machine

/-- `INJECT` (41_ingest R60): append each byte while the ring has room, drop it otherwise; always `OK`. -/
def execInject (din : List Byte) (s : State) : Result :=
  .next ((din.foldl State.ringAppend s).respond .ok 0 [])

end Sys2Proof.Machine
end

