-- ==== Sys2Proof/Machine/Statistics.lean ====
section
/-! DEFINITION. Statistics: `STAT` (45_statistics). -/

namespace Sys2Proof.Machine

/-- `STAT` (45_statistics R100): respond with counter `k`; nothing else changes. -/
def execStat (k : Fin 16) (s : State) : Result :=
  .next (s.respond .ok (s.stats.get (Counter.ofNumber k)) [])

end Sys2Proof.Machine
end

