-- ==== Sys2Proof/Machine/Dispatch.lean ====
section
/-! DEFINITION. One arm per command, each a direct call of its meaning. -/

namespace Sys2Proof.Machine

/-- The effect of one well-formed command (30_encoding R52). -/
def exec (i : Instr) (s : State) : Host.Outcome State Fault Refusal :=
  match i with
  | .inject din => Sys2Proof.Machine.execInject din s
  | .beginRead => Sys2Proof.Machine.execBeginRead s
  | .read maxLen => Sys2Proof.Machine.execRead maxLen s
  | .readExact len => Sys2Proof.Machine.execReadExact len s
  | .endRead => Sys2Proof.Machine.execEndRead s
  | .beginWrite => Sys2Proof.Machine.execBeginWrite s
  | .write din => Sys2Proof.Machine.execWrite din s
  | .endWrite => Sys2Proof.Machine.execEndWrite s
  | .stat k => Sys2Proof.Machine.execStat k s

end Sys2Proof.Machine
end

