-- ==== Sys2Proof/Machine/Interface.lean ====
section
/-! DEFINITION. What the block does with one item on its input ports: a command transaction or a reset request
(30_encoding R50, R56; 60_exceptions R104; 70_reset R116, R117). -/

namespace Sys2Proof.Machine

/-- One command transaction, from the state in which the host has presented it: a malformed one answers
`IllegalCommand` before anything else is looked at and changes nothing (30_encoding R56, 60_exceptions R104). -/
def performCommand (t : Transaction) (s : State) : Result :=
  match decode t with
  | .error _ => .next (s.fail .illegalCommand)
  | .ok i => exec i s

/-- A reset request: the configuration is checked, and an invalid one is rejected (70_reset R116, R117). -/
def performReset (p : Params) (s : State) : Result :=
  if h : p.Valid then .next (s.applyReset { toParams := p, valid := h }) else .refused .invalidConfiguration

/-- One item the host presents (00_scope R6, 30_encoding R50). -/
def perform (e : HostEvent) (s : State) : Result :=
  match e with
  | .command t => performCommand t s
  | .reset p => performReset p s

end Sys2Proof.Machine
end

