-- ==== Sys2Proof/Machine/Step.lean ====
section
/-! DEFINITION. One step of the machine: it takes the next item the host presents and performs it whole (00_scope R6). -/

namespace Sys2Proof.Machine

/-- One step. With nothing presented the block holds all its state (60_exceptions R115); otherwise the item leaves the
host's stream and is performed as one atomic step (00_scope R6, 20_memory R40, R41). -/
def step (s : State) : Host.Outcome State Fault Refusal :=
  match s.host with
  | [] => .next s
  | e :: rest => perform e { s with host := rest }

/-- The state with an opcode-table word as the command the host presents next (DESIGN CHOICE, safe:
assumption 3). -/
def State.withFetchWord (s : State) (nbits w : Nat) : State :=
  { s with host := .command (tableTransaction nbits w) :: s.host }

end Sys2Proof.Machine
end

