-- ==== Sys2Proof/Machine/Wire.lean ====
section
/-! DEFINITION. The wire format (30_encoding R46 to R49), apart from the machine: escaping, escape removal and the frame
of a payload. The commands do not call these functions; claims compare the commands with them. -/

namespace Sys2Proof.Machine

/-- `esc(b)`: a delimiter or an escape byte becomes two wire bytes (30_encoding R47). -/
def escByte (cfg : Config) (b : Byte) : List Byte :=
  if b = cfg.delim ∨ b = cfg.esc then [cfg.esc, b ^^^ cfg.escXor] else [b]

/-- The escaped form of a byte sequence (30_encoding R46). -/
def escBytes (cfg : Config) (p : List Byte) : List Byte := p.flatMap (escByte cfg)

/-- The frame of a payload on the wire (30_encoding R46, 43_encode R85). -/
def wireFrame (cfg : Config) (p : List Byte) : List Byte :=
  [cfg.delim] ++ escBytes cfg p ++ escByte cfg (crc8 p) ++ [cfg.delim]

/-- Escape removal over content bytes (42_decode R67): the decoded bytes, and whether an escape is left pending at the
end. The first argument says whether an escape is pending at the start. -/
def unescape (cfg : Config) : Bool → List Byte → List Byte × Bool
  | pend, [] => ([], pend)
  | true, b :: bs => ((b ^^^ cfg.escXor) :: (unescape cfg false bs).1, (unescape cfg false bs).2)
  | false, b :: bs =>
    if b = cfg.esc then unescape cfg true bs
    else (b :: (unescape cfg false bs).1, (unescape cfg false bs).2)

end Sys2Proof.Machine
end

