-- ==== Sys2Proof/Safety.lean ====
section
/-! DEFINITION. What counts as a legal state, a safe outcome and an observation, in the terms the claims use. -/

namespace Sys2Proof.Machine

/-! ## Legal states and outcomes -/

/-- The legal states: both memories are canonical and hold only the cells they have (20_memory R32); `tail < C`
(10_state R16); `unread ≤ C` (R17); `stageSize ≤ M − 1` (R20); `cursor ≤ stageSize` (R21). -/
structure State.Inv (s : State) : Prop where
  ring_wf : s.ring.wf = true
  ring_within : s.ring.within s.cfg.ringCap = true
  stage_wf : s.stage.wf = true
  stage_within : s.stage.within s.cfg.maxFrame = true
  tail_lt : s.tail.toNat < s.cfg.ringCap
  unread_le : s.unread.toNat ≤ s.cfg.ringCap
  stageSize_lt : s.stageSize.toNat < s.cfg.maxFrame
  cursor_le : s.cursor.toNat ≤ s.stageSize.toNat

/-- The item the host presents next, if any, is no reset with an invalid configuration (70_reset R116). -/
def State.ResetValid (s : State) : Prop := ∀ p rest, s.host = .reset p :: rest → p.Valid

/-- Each minimum and maximum pair is at its reset values or in order (45_statistics R97). -/
def Stats.SizesOrdered (x : Stats) : Prop :=
  ((x.minRxFrameSize = 0xFFFFFFFF ∧ x.maxRxFrameSize = 0) ∨ x.minRxFrameSize ≤ x.maxRxFrameSize) ∧
    ((x.writeFrameMinSize = 0xFFFFFFFF ∧ x.writeFrameMaxSize = 0) ∨ x.writeFrameMinSize ≤ x.writeFrameMaxSize)

/-! ## Sequences of commands -/

/-- Several well-formed commands, one after another, stopping at the first that gives no next state. -/
def execAll : List Instr → State → Result
  | [], s => .next s
  | i :: is, s =>
    match exec i s with
    | .next t => execAll is t
    | .fault f => .fault f
    | .refused r => .refused r

/-! ## The two sides (20_memory R45) -/

/-- The commands of the receive side. -/
def isReceiveCommand : Instr → Bool
  | .inject _ => true
  | .beginRead => true
  | .read _ => true
  | .readExact _ => true
  | .endRead => true
  | .beginWrite => false
  | .write _ => false
  | .endWrite => false
  | .stat _ => false

/-- The commands of the transmit side. -/
def isTransmitCommand : Instr → Bool
  | .inject _ => false
  | .beginRead => false
  | .read _ => false
  | .readExact _ => false
  | .endRead => false
  | .beginWrite => true
  | .write _ => true
  | .endWrite => true
  | .stat _ => false

/-- Statistics 0 to 11 belong to the receive side, 12 to 15 to the transmit side. -/
def Counter.onReceiveSide : Counter → Bool
  | .writeFrameMinSize => false
  | .writeFrameMaxSize => false
  | .writeFrameCount => false
  | .writeByteCount => false
  | _ => true

/-- The two states agree on the receive side. -/
def State.SameReceive (s t : State) : Prop :=
  s.cfg = t.cfg ∧ s.ring = t.ring ∧ s.tail = t.tail ∧ s.unread = t.unread ∧ s.stage = t.stage ∧
    s.stageSize = t.stageSize ∧ s.cursor = t.cursor ∧ s.rxState = t.rxState ∧
    ∀ c : Counter, c.onReceiveSide = true → s.stats.get c = t.stats.get c

/-- The two states agree on the transmit side. -/
def State.SameTransmit (s t : State) : Prop :=
  s.cfg = t.cfg ∧ s.txState = t.txState ∧ s.txCrc = t.txCrc ∧ s.txSize = t.txSize ∧
    ∀ c : Counter, c.onReceiveSide = false → s.stats.get c = t.stats.get c

/-! ## What can be observed (10_state R31) -/

/-- The two states differ at most in what 10_state R15, R19 and R31 call unobservable: the ring outside the unread
bytes and where in the ring these begin; the staging buffer and the read registers while no read session is open, and
the staged bytes past `stageSize`; the encoder's registers while no frame is open. -/
structure State.Alike (s t : State) : Prop where
  cfg : s.cfg = t.cfg
  unread : s.unread = t.unread
  unreadBytes : s.unreadBytes = t.unreadBytes
  rxState : s.rxState = t.rxState
  txState : s.txState = t.txState
  stats : s.stats = t.stats
  host : s.host = t.host
  responses : s.responses = t.responses
  sink : s.sink = t.sink
  reading : s.rxState = .reading → s.stageSize = t.stageSize ∧ s.cursor = t.cursor ∧
    ∀ j, j < s.stageSize.toNat → s.stageRead j = t.stageRead j
  writing : s.txState = .writing → s.txCrc = t.txCrc ∧ s.txSize = t.txSize

/-! ## Terms of the statements -/

/-- 30_encoding R56, its six cases read off the bits of `CMD`. -/
def MalformedTransaction (t : Transaction) : Prop :=
  let op := t.cmd.toNat / 2 ^ 28
  let res := t.cmd.toNat / 2 ^ 16 % 2 ^ 12
  let arg := t.cmd.toNat % 2 ^ 16
  (op = 0 ∨ 0xA ≤ op) ∨ res ≠ 0 ∨ ((op = 2 ∨ op = 5 ∨ op = 6 ∨ op = 8) ∧ arg ≠ 0) ∨ (op = 9 ∧ 15 < arg) ∨
    ((op = 1 ∨ op = 7) ∧ t.din.length ≠ arg) ∨ (op ≠ 1 ∧ op ≠ 7 ∧ t.din ≠ [])

/-- The registers, sessions and counters at the values of 10_state R31; ring and staging contents are left open. -/
def AtResetValues (t : State) : Prop :=
  t.tail = 0 ∧ t.unread = 0 ∧ t.stageSize = 0 ∧ t.cursor = 0 ∧ t.rxState = .notReading ∧
  t.txState = .notWriting ∧ t.txCrc = 0 ∧ t.txSize = 0 ∧
  ∀ c : Counter, t.stats.get c = if c = .minRxFrameSize ∨ c = .writeFrameMinSize then 0xFFFFFFFF else 0

/-- The staging buffer after decoded bytes `v` were stored from cell 0 on; every other cell is as it was. -/
def StagedOver (before after : Memory) (v : List Byte) : Prop :=
  (∀ j (h : j < v.length), Memory.read after j = v[j]) ∧
    ∀ a, v.length ≤ a → Memory.read after a = Memory.read before a

/-- The unread bytes hold no complete frame and no frame too big (42_decode R73): at most one delimiter, and what
follows it decodes to at most `M` bytes. -/
def NoCompleteFrame (s : State) : Prop :=
  let body := (s.unreadBytes.dropWhile (· ≠ s.cfg.delim)).tail
  s.cfg.delim ∉ body ∧ (unescape s.cfg false body).1.length ≤ s.cfg.maxFrame

/-- The stray bytes a scan passes: those before the first delimiter (42_decode R66). -/
def strayCount (s : State) : Nat := (s.unreadBytes.takeWhile (· ≠ s.cfg.delim)).length

end Sys2Proof.Machine
end

