-- ==== Sys2Proof/Certificates/Slice0/Obligations.lean ====
section
/-! DEFINITION. The statements about the block, made from the spec's numbered rules. -/

open Sys2Proof Sys2Proof.Machine

/-! ## Encoding -/

/-- Every well-formed command decodes back from its transaction (30_encoding R51 to R53, R58). -/
def Obligations.EncodedCommandDecodesBack : Prop :=
  ∀ i : Instr, i.wf = true → decode (encode i) = .ok i

/-- A transaction has one meaning: it is the encoding of the command it decodes to (30_encoding R51 to R53, R57). -/
def Obligations.DecodedTransactionIsItsCommandsEncoding : Prop :=
  ∀ (t : Transaction) (i : Instr), decode t = .ok i → i.wf = true ∧ encode i = t

/-- 30_encoding R56: a malformed transaction answers `(IllegalCommand, 0, [])` and nothing else changes, whatever the
state; a transaction that is not malformed is some command. -/
def Obligations.MalformedTransactionsOnlyAnswerIllegalCommand : Prop :=
  ∀ (s : State) (t : Transaction) (rest : List HostEvent), s.host = .command t :: rest →
    (MalformedTransaction t →
      step s = .next { s with host := rest, responses := s.responses ++ [⟨.illegalCommand, 0, []⟩] }) ∧
    (¬ MalformedTransaction t → ∃ i, decode t = .ok i)

/-- The words of 30_encoding R58 for the nine commands, written out from the field layout of R51. -/
def Obligations.CommandWordsOfTheSpecDecode : Prop :=
  decode ⟨0x10000002, [0x7E, 0x01]⟩ = .ok (.inject [0x7E, 0x01]) ∧
  decode ⟨0x20000000, []⟩ = .ok .beginRead ∧
  decode ⟨0x3000FFFF, []⟩ = .ok (.read 0xFFFF) ∧
  decode ⟨0x40000006, []⟩ = .ok (.readExact 6) ∧
  decode ⟨0x50000000, []⟩ = .ok .endRead ∧
  decode ⟨0x60000000, []⟩ = .ok .beginWrite ∧
  decode ⟨0x70000001, [0x41]⟩ = .ok (.write [0x41]) ∧
  decode ⟨0x80000000, []⟩ = .ok .endWrite ∧
  decode ⟨0x9000000F, []⟩ = .ok (.stat 15)

/-- The status numbers of 30_encoding R54. -/
def Obligations.StatusCodesAreNumberedZeroToEight : Prop :=
  [Status.ok, .notReady, .noFrame, .tooSmall, .badEncoding, .badCrc8, .tooBig, .notEnough, .illegalCommand].map
    Status.code = [0x00, 0x01, 0x02, 0x03, 0x04, 0x05, 0x06, 0x07, 0x08]

/-! ## The step, reset and the legal states -/

/-- A step takes the transaction the host presents and runs the command it decodes to, with the transaction gone from
the host's stream; with nothing presented the block holds all its state (60_exceptions R115). -/
def Obligations.StepRunsTheDecodedCommand : Prop :=
  (∀ (s : State) (t : Transaction) (rest : List HostEvent) (i : Instr), s.host = .command t :: rest →
    decode t = .ok i → step s = exec i { s with host := rest }) ∧
  (∀ s : State, s.host = [] → step s = .next s)

/-- What the registers, sessions and counters hold after reset (10_state R31). -/
def Obligations.ResetStateHoldsTheResetValues : Prop := AtResetValues State.reset

/-- 70_reset R117: a reset request between two commands samples a valid configuration, sets every register to its reset
value, gives no response and emits nothing. -/
def Obligations.ResetRequestConstructsTheBlock : Prop :=
  ∀ (s : State) (p : Params) (rest : List HostEvent), s.host = .reset p :: rest → p.Valid →
    ∃ t, step s = .next t ∧ t.cfg.toParams = p ∧ AtResetValues t ∧
      t.host = rest ∧ t.responses = s.responses ∧ t.sink = s.sink

/-- A reset request with an invalid configuration is rejected, so no block exists for it (70_reset R116; that the step
then refuses by name is the model's choice, assumption 5). -/
def Obligations.InvalidConfigurationIsRejected : Prop :=
  ∀ (s : State) (p : Params) (rest : List HostEvent), s.host = .reset p :: rest → ¬ p.Valid →
    step s = .refused .invalidConfiguration

/-- The state after reset is legal. -/
def Obligations.ResetStateIsLegal : Prop := State.reset.Inv

/-- Every step from a legal state leads to a legal state (10_state R16 to R21, 20_memory R32 to R34). -/
def Obligations.StepKeepsLegalStates : Prop :=
  ∀ s t : State, s.Inv → step s = .next t → t.Inv

/-- 60_exceptions R102, R107: from a legal state every command completes, with exactly one response; it leaves the
configuration and the rest of the host's stream alone. -/
def Obligations.EveryCommandCompletesWithOneResponse : Prop :=
  ∀ (s : State) (i : Instr), s.Inv →
    ∃ t r, exec i s = .next t ∧ t.responses = s.responses ++ [r] ∧ t.cfg = s.cfg ∧ t.host = s.host

/-- From a legal state the machine stops only on a reset request with an invalid configuration, so a run never faults
(60_exceptions R102). -/
def Obligations.LegalStatesNeverFault : Prop :=
  ∀ s : State, s.Inv → (∀ f, step s ≠ .fault f) ∧ (s.ResetValid → ∃ t, step s = .next t)

/-- READ, READ_EXACT and END_READ stop by name in the states 10_state R20 and R21 rule out; the model's choice
(assumption 4). -/
def Obligations.ReadCommandsStopInIllegalStates : Prop :=
  ∀ (s : State) (n : BitVec 16), s.rxState = .reading →
    (s.stageSize.toNat < s.cursor.toNat →
      exec (.read n) s = .fault .cursorPastPayload ∧ exec (.readExact n) s = .fault .cursorPastPayload ∧
      exec .endRead s = .fault .cursorPastPayload) ∧
    (s.cursor.toNat ≤ s.stageSize.toNat →
      0 < min n.toNat (s.stageSize.toNat - s.cursor.toNat) →
      s.cfg.maxFrame < s.cursor.toNat + min n.toNat (s.stageSize.toNat - s.cursor.toNat) →
      exec (.read n) s = .fault .stagingIndexOutOfRange ∧ exec (.readExact n) s = .fault .stagingIndexOutOfRange)

/-! ## Sessions -/

/-- A command whose session is in the wrong state answers `NotReady` and writes nothing else (42_decode R65,
60_exceptions R103). -/
def Obligations.WrongSessionOnlyAnswersNotReady : Prop :=
  ∀ (s : State) (n : BitVec 16) (din : List Byte),
    (s.rxState = .reading → exec .beginRead s = .next { s with responses := s.responses ++ [⟨.notReady, 0, []⟩] }) ∧
    (s.rxState = .notReading → ∀ i, i = .read n ∨ i = .readExact n ∨ i = .endRead →
      exec i s = .next { s with responses := s.responses ++ [⟨.notReady, 0, []⟩] }) ∧
    (s.txState = .writing → exec .beginWrite s = .next { s with responses := s.responses ++ [⟨.notReady, 0, []⟩] }) ∧
    (s.txState = .notWriting → ∀ i, i = .write din ∨ i = .endWrite →
      exec i s = .next { s with responses := s.responses ++ [⟨.notReady, 0, []⟩] })

/-- The response of each command: which statuses it may have, and what `VALUE` and `DOUT` then hold (30_encoding R54,
R55; 60_exceptions R103). -/
def Obligations.EachCommandAnswersInItsOwnForm : Prop :=
  ∀ (s t : State) (i : Instr), exec i s = .next t → ∃ r, t.responses = s.responses ++ [r] ∧
    match i with
    | .inject _ => r = ⟨.ok, 0, []⟩
    | .beginRead => r.dout = [] ∧ ((r.status = .ok ∧ r.value = t.stageSize ∧ t.rxState = .reading) ∨
        (r.value = 0 ∧ r.status ∈ [.notReady, .noFrame, .tooSmall, .badEncoding, .badCrc8, .tooBig]))
    | .read n => r = ⟨.notReady, 0, []⟩ ∨
        (r.status = .ok ∧ r.value = word r.dout.length ∧ r.dout.length ≤ n.toNat)
    | .readExact n => r = ⟨.notReady, 0, []⟩ ∨
        (r.value = word r.dout.length ∧ ((r.status = .ok ∧ r.dout.length = n.toNat) ∨
          (r.status = .notEnough ∧ r.dout.length < n.toNat)))
    | .endRead => r = ⟨.notReady, 0, []⟩ ∨ r = ⟨.ok, 0, []⟩
    | .beginWrite => r = ⟨.notReady, 0, []⟩ ∨ r = ⟨.ok, 0, []⟩
    | .write _ => r = ⟨.notReady, 0, []⟩ ∨ r = ⟨.ok, 0, []⟩
    | .endWrite => r = ⟨.notReady, 0, []⟩ ∨ r = ⟨.ok, 0, []⟩
    | .stat k => r = ⟨.ok, s.stats.get (Counter.ofNumber k), []⟩

/-- 10_state R22 and R23: which commands change the session states, and that nothing writes the staged frame while it
is being read. -/
def Obligations.SessionsChangeOnlyByTheirCommands : Prop :=
  ∀ (s t : State) (i : Instr), exec i s = .next t →
    (s.rxState = .notReading → t.rxState = .reading →
      i = .beginRead ∧ ∃ v, t.responses = s.responses ++ [⟨.ok, v, []⟩]) ∧
    (s.rxState = .reading → t.rxState = .notReading → i = .endRead) ∧
    (s.rxState = .reading → t.stage = s.stage ∧ t.stageSize = s.stageSize) ∧
    (s.txState = .notWriting → t.txState = .writing →
      i = .beginWrite ∧ t.responses = s.responses ++ [⟨.ok, 0, []⟩]) ∧
    (s.txState = .writing → t.txState = .notWriting →
      i = .endWrite ∧ t.responses = s.responses ++ [⟨.ok, 0, []⟩])

/-- Which commands write which piece of state: every other command leaves it as it was, and none writes the
configuration (10_state R14 to R25, 45_statistics R95, R99, 43_encode R80). -/
def Obligations.EachRegisterHasOnlyItsWriters : Prop :=
  ∀ (s t : State) (i : Instr), exec i s = .next t →
    t.cfg = s.cfg ∧ t.host = s.host ∧
    ((∀ d, i ≠ .inject d) → t.ring = s.ring) ∧
    (i ≠ .beginRead → t.tail = s.tail ∧ t.stage = s.stage ∧ t.stageSize = s.stageSize) ∧
    (i ≠ .beginRead → (∀ d, i ≠ .inject d) → t.unread = s.unread) ∧
    (i ≠ .beginRead → (∀ n, i ≠ .read n) → (∀ n, i ≠ .readExact n) → t.cursor = s.cursor) ∧
    (i ≠ .beginRead → i ≠ .endRead → t.rxState = s.rxState) ∧
    (i ≠ .beginWrite → i ≠ .endWrite → t.txState = s.txState) ∧
    (i ≠ .beginWrite → i ≠ .endWrite → (∀ d, i ≠ .write d) →
      t.txCrc = s.txCrc ∧ t.txSize = s.txSize ∧ t.sink = s.sink) ∧
    (i ≠ .beginRead → ∀ c ∈ [Counter.rxFalseStarts, .rxRejectedEncodingError, .rxRejectedTooBig,
      .rxRejectedTooSmall, .rxRejectedBadCrc8, .rxFrameCount, .minRxFrameSize, .maxRxFrameSize],
      t.stats.get c = s.stats.get c) ∧
    ((∀ n, i ≠ .read n) → (∀ n, i ≠ .readExact n) → t.stats.readOverreach = s.stats.readOverreach) ∧
    (i ≠ .endRead → t.stats.readDiscardFrameCount = s.stats.readDiscardFrameCount ∧
      t.stats.readDiscardByteCount = s.stats.readDiscardByteCount) ∧
    ((∀ n, i ≠ .read n) → (∀ n, i ≠ .readExact n) → i ≠ .endRead →
      t.stats.readByteCount = s.stats.readByteCount) ∧
    (i ≠ .endWrite → ∀ c ∈ [Counter.writeFrameMinSize, .writeFrameMaxSize, .writeFrameCount],
      t.stats.get c = s.stats.get c) ∧
    (i ≠ .endWrite → (∀ d, i ≠ .write d) → t.stats.writeByteCount = s.stats.writeByteCount)

/-! ## INJECT -/

/-- 41_ingest R60: INJECT's encoding, and in every session state its effect: the bytes that fit go to the cells at and
after the head index, the rest are dropped, and nothing else changes. -/
def Obligations.InjectAppendsWhatFitsAndDropsTheRest : Prop :=
  ∀ (s : State) (din : List Byte),
    (din.length ≤ 65535 → encode (.inject din) = ⟨0x10000000 + word din.length, din⟩) ∧
    (s.ring.wf = true →
      let k := min din.length (s.cfg.ringCap - s.unread.toNat)
      ∃ r : Memory,
        exec (.inject din) s = .next { s with
          ring := r, unread := word (s.unread.toNat + k), responses := s.responses ++ [⟨.ok, 0, []⟩] } ∧
        (∀ j (h : j < din.length), j < k →
          Memory.read r ((s.tail.toNat + s.unread.toNat + j) % s.cfg.ringCap) = din[j]) ∧
        (∀ a, (∀ j, j < k → a ≠ (s.tail.toNat + s.unread.toNat + j) % s.cfg.ringCap) →
          Memory.read r a = Memory.read s.ring a))

/-- INJECT appends to the unread bytes and overwrites none of them (10_state R18, 41_ingest R60; the spec's own inference
R63). -/
def Obligations.InjectExtendsTheUnreadBytes : Prop :=
  ∀ (s : State) (din : List Byte), s.Inv →
    ∃ t, exec (.inject din) s = .next t ∧
      t.unreadBytes = s.unreadBytes ++ din.take (s.cfg.ringCap - s.unread.toNat)

/-- A data-in sequence may be split over two INJECT or two WRITE commands with the same effect but for the number of
responses (41_ingest R60, 43_encode R83; the spec's own inference 30_encoding R53). -/
def Obligations.SplittingTheDataHasTheSameEffect : Prop :=
  ∀ (s : State) (a b : List Byte),
    (∃ t, execAll [.inject a, .inject b] s = .next t ∧
      exec (.inject (a ++ b)) s = .next { t with responses := s.responses ++ [⟨.ok, 0, []⟩] }) ∧
    (s.txState = .writing → ∃ t, execAll [.write a, .write b] s = .next t ∧
      exec (.write (a ++ b)) s = .next { t with responses := s.responses ++ [⟨.ok, 0, []⟩] })

/-! ## BEGIN_READ -/

/-- 42_decode R64 and R70: a frame whose escapes are complete, whose payload is below `M` bytes and whose check byte is
right is accepted, and everything its acceptance writes. -/
def Obligations.BeginReadAcceptsAValidFrame : Prop :=
  ∀ (s : State) (strays body rest payload : List Byte), s.Inv → s.rxState = .notReading →
    s.unreadBytes = strays ++ s.cfg.delim :: (body ++ s.cfg.delim :: rest) →
    s.cfg.delim ∉ strays → s.cfg.delim ∉ body →
    unescape s.cfg false body = (payload ++ [crc8 payload], false) → payload.length < s.cfg.maxFrame →
    let n := strays.length + body.length + 2
    let size := word payload.length
    ∃ g : Memory,
      exec .beginRead s = .next { s with
        tail := word ((s.tail.toNat + n) % s.cfg.ringCap), unread := word (s.unread.toNat - n),
        stage := g, stageSize := size, cursor := 0, rxState := .reading,
        stats := { s.stats with
          rxFalseStarts := addCounting s.cfg.counterMode s.stats.rxFalseStarts strays.length,
          rxFrameCount := addCounting s.cfg.counterMode s.stats.rxFrameCount 1,
          minRxFrameSize := if size < s.stats.minRxFrameSize then size else s.stats.minRxFrameSize,
          maxRxFrameSize := if s.stats.maxRxFrameSize < size then size else s.stats.maxRxFrameSize },
        responses := s.responses ++ [⟨.ok, size, []⟩] } ∧
      StagedOver s.stage g (payload ++ [crc8 payload])

/-- 42_decode R69: the checks at the second delimiter, in their order; the rejected frame is consumed with the stray
bytes before it and its own counter rises by one. -/
def Obligations.SecondDelimiterChecksRunInOrder : Prop :=
  ∀ (s : State) (strays body rest decoded : List Byte) (pend : Bool), s.Inv → s.rxState = .notReading →
    s.unreadBytes = strays ++ s.cfg.delim :: (body ++ s.cfg.delim :: rest) →
    s.cfg.delim ∉ strays → s.cfg.delim ∉ body →
    unescape s.cfg false body = (decoded, pend) → decoded.length ≤ s.cfg.maxFrame →
    let n := strays.length + body.length + 2
    let add := fun (x : Word) (a : Nat) => addCounting s.cfg.counterMode x a
    let rejected := fun (status : Status) (stats : Stats) => ∃ g : Memory,
      exec .beginRead s = .next { s with
        tail := word ((s.tail.toNat + n) % s.cfg.ringCap), unread := word (s.unread.toNat - n), stage := g,
        stats := { stats with rxFalseStarts := add s.stats.rxFalseStarts strays.length },
        responses := s.responses ++ [⟨status, 0, []⟩] } ∧
      StagedOver s.stage g decoded
    if pend = true then
      rejected .badEncoding { s.stats with rxRejectedEncodingError := add s.stats.rxRejectedEncodingError 1 }
    else if decoded.length < 1 then
      rejected .tooSmall { s.stats with rxRejectedTooSmall := add s.stats.rxRejectedTooSmall 1 }
    else if crc8 decoded ≠ 0 then
      rejected .badCrc8 { s.stats with rxRejectedBadCrc8 := add s.stats.rxRejectedBadCrc8 1 }
    else ∃ t, exec .beginRead s = .next t ∧ t.rxState = .reading ∧ t.unreadBytes = rest ∧
      t.responses = s.responses ++ [⟨.ok, word (decoded.length - 1), []⟩]

/-- 42_decode R71: the byte that would be the `(M+1)`-th decoded one ends the scan; it and everything before it are
consumed, and the rest of the frame stays in the ring. -/
def Obligations.TooBigOnTheByteAfterTheLastThatFits : Prop :=
  ∀ (s : State) (strays body rest decoded : List Byte) (b : Byte) (pend : Bool), s.Inv → s.rxState = .notReading →
    s.unreadBytes = strays ++ s.cfg.delim :: (body ++ b :: rest) →
    s.cfg.delim ∉ strays → s.cfg.delim ∉ body → b ≠ s.cfg.delim →
    unescape s.cfg false body = (decoded, pend) → decoded.length = s.cfg.maxFrame →
    (pend = true ∨ b ≠ s.cfg.esc) →
    let n := strays.length + body.length + 2
    ∃ (g : Memory) (t : State), exec .beginRead s = .next t ∧
      t = { s with
        tail := word ((s.tail.toNat + n) % s.cfg.ringCap), unread := word (s.unread.toNat - n), stage := g,
        stats := { s.stats with
          rxFalseStarts := addCounting s.cfg.counterMode s.stats.rxFalseStarts strays.length,
          rxRejectedTooBig := addCounting s.cfg.counterMode s.stats.rxRejectedTooBig 1 },
        responses := s.responses ++ [⟨.tooBig, 0, []⟩] } ∧
      StagedOver s.stage g decoded ∧ t.unreadBytes = rest

/-- 42_decode R73: without a complete frame the scan is rolled back; only `rxFalseStarts` keeps what it counted. -/
def Obligations.NoFrameRollsBackExactly : Prop :=
  ∀ s : State, s.Inv → s.rxState = .notReading → NoCompleteFrame s →
    ∃ g : Memory, exec .beginRead s = .next { s with
        stage := g,
        stats := { s.stats with
          rxFalseStarts := addCounting s.cfg.counterMode s.stats.rxFalseStarts (strayCount s) },
        responses := s.responses ++ [⟨.noFrame, 0, []⟩] } ∧
      StagedOver s.stage g
        (unescape s.cfg false ((s.unreadBytes.dropWhile (· ≠ s.cfg.delim)).tail)).1

/-- Each of `k` polls of `BEGIN_READ` without a complete frame answers `NoFrame` and counts the waiting stray bytes
again (42_decode R73; the spec's own inference 70_reset R126). -/
def Obligations.PollingCountsTheStrayBytesAgain : Prop :=
  ∀ (s : State) (k : Nat), s.Inv → s.rxState = .notReading → NoCompleteFrame s →
    ∃ t, execAll (List.replicate k .beginRead) s = .next t ∧
      t.responses = s.responses ++ List.replicate k ⟨.noFrame, 0, []⟩ ∧
      t.stats.rxFalseStarts = addCounting s.cfg.counterMode s.stats.rxFalseStarts (k * strayCount s) ∧
      t.unreadBytes = s.unreadBytes

/-- Once the ring is full and `BEGIN_READ` answers `NoFrame`, no sequence of commands changes the ring, every later
`BEGIN_READ` answers `NoFrame` and counts the same stray bytes, and every later `INJECT` drops all its bytes
(41_ingest R60, 42_decode R64; the spec's own inference 70_reset R124). -/
def Obligations.FullRingWithoutFrameIsWedged : Prop :=
  ∀ (s t s₁ : State) (is : List Instr), s.unread.toNat = s.cfg.ringCap →
    exec .beginRead s = .next s₁ → s₁.responses = s.responses ++ [⟨.noFrame, 0, []⟩] →
    execAll is s = .next t →
    t.ring = s.ring ∧ t.tail = s.tail ∧ t.unread = s.unread ∧
    (∃ u, exec .beginRead t = .next u ∧ u.responses = t.responses ++ [⟨.noFrame, 0, []⟩] ∧
      u.stats.rxFalseStarts = addCounting s.cfg.counterMode t.stats.rxFalseStarts (strayCount s)) ∧
    ∀ din, exec (.inject din) t = .next { t with responses := t.responses ++ [⟨.ok, 0, []⟩] }

/-! ## READ, READ_EXACT and END_READ -/

/-- 42_decode R76: READ's encoding, its precondition, and what it does in a session: it copies what is asked for as far
as payload is left, and a short read is no error. -/
def Obligations.ReadCopiesStagedPayload : Prop :=
  ∀ (s : State) (maxLen : BitVec 16),
    encode (.read maxLen) = ⟨0x30000000 + word maxLen.toNat, []⟩ ∧
    (s.rxState = .notReading →
      exec (.read maxLen) s = .next { s with responses := s.responses ++ [⟨.notReady, 0, []⟩] }) ∧
    (s.rxState = .reading → s.cursor.toNat ≤ s.stageSize.toNat → s.stageSize.toNat < s.cfg.maxFrame →
      let k := min maxLen.toNat (s.stageSize.toNat - s.cursor.toNat)
      exec (.read maxLen) s = .next { s with
        cursor := word (s.cursor.toNat + k),
        stats := { s.stats with
          readByteCount := addCounting s.cfg.counterMode s.stats.readByteCount k,
          readOverreach := if k < maxLen.toNat then addCounting s.cfg.counterMode s.stats.readOverreach 1
            else s.stats.readOverreach },
        responses := s.responses ++
          [⟨.ok, word k, (List.range k).map fun j => Memory.read s.stage (s.cursor.toNat + j)⟩] })

/-- 42_decode R77: READ_EXACT's encoding, its precondition, and what it does in a session: all the effects of READ, and
`NotEnough` when fewer bytes were left. -/
def Obligations.ReadExactCopiesOrAnswersNotEnough : Prop :=
  ∀ (s : State) (len : BitVec 16),
    encode (.readExact len) = ⟨0x40000000 + word len.toNat, []⟩ ∧
    (s.rxState = .notReading →
      exec (.readExact len) s = .next { s with responses := s.responses ++ [⟨.notReady, 0, []⟩] }) ∧
    (s.rxState = .reading → s.cursor.toNat ≤ s.stageSize.toNat → s.stageSize.toNat < s.cfg.maxFrame →
      let k := min len.toNat (s.stageSize.toNat - s.cursor.toNat)
      exec (.readExact len) s = .next { s with
        cursor := word (s.cursor.toNat + k),
        stats := { s.stats with
          readByteCount := addCounting s.cfg.counterMode s.stats.readByteCount k,
          readOverreach := if k < len.toNat then addCounting s.cfg.counterMode s.stats.readOverreach 1
            else s.stats.readOverreach },
        responses := s.responses ++
          [⟨if k < len.toNat then .notEnough else .ok, word k,
            (List.range k).map fun j => Memory.read s.stage (s.cursor.toNat + j)⟩] })

/-- 42_decode R78: END_READ's encoding, its precondition, and what it does in a session: it closes the session and
counts the payload bytes it discards, if there are any. -/
def Obligations.EndReadDiscardsAndCloses : Prop :=
  encode .endRead = ⟨0x50000000, []⟩ ∧
  ∀ s : State,
    (s.rxState = .notReading →
      exec .endRead s = .next { s with responses := s.responses ++ [⟨.notReady, 0, []⟩] }) ∧
    (s.rxState = .reading → s.cursor.toNat ≤ s.stageSize.toNat →
      let rem := s.stageSize.toNat - s.cursor.toNat
      exec .endRead s = .next { s with
        rxState := .notReading,
        stats := if 0 < rem then { s.stats with
            readDiscardFrameCount := addCounting s.cfg.counterMode s.stats.readDiscardFrameCount 1,
            readDiscardByteCount := addCounting s.cfg.counterMode s.stats.readDiscardByteCount rem,
            readByteCount := addCounting s.cfg.counterMode s.stats.readByteCount rem }
          else s.stats,
        responses := s.responses ++ [⟨.ok, 0, []⟩] })

/-- A frame that BEGIN_READ accepts and END_READ closes adds exactly its payload size to `readByteCount`, whatever
commands come between (42_decode R76 to R78; the spec's own inference R79). -/
def Obligations.ClosedFrameCountsItsPayloadOnce : Prop :=
  ∀ (s a : State) (between : List Instr), s.Inv → s.rxState = .notReading → exec .beginRead s = .next a →
    a.rxState = .reading → (∀ i ∈ between, i ≠ .endRead) →
    ∃ t, execAll (between ++ [.endRead]) a = .next t ∧ t.rxState = .notReading ∧
      t.stats.readByteCount = addCounting s.cfg.counterMode s.stats.readByteCount a.stageSize.toNat

/-! ## BEGIN_WRITE, WRITE and END_WRITE -/

/-- 43_encode R82: BEGIN_WRITE's encoding, its precondition, and what it does with no frame open: it opens one with one
delimiter on the sink. -/
def Obligations.BeginWriteOpensAFrame : Prop :=
  encode .beginWrite = ⟨0x60000000, []⟩ ∧
  ∀ s : State,
    (s.txState = .writing →
      exec .beginWrite s = .next { s with responses := s.responses ++ [⟨.notReady, 0, []⟩] }) ∧
    (s.txState = .notWriting →
      exec .beginWrite s = .next { s with
        txCrc := 0, txSize := 1, txState := .writing, sink := s.sink ++ [s.cfg.delim],
        responses := s.responses ++ [⟨.ok, 0, []⟩] })

/-- 43_encode R81 and R83: WRITE's encoding, its precondition, and what it does in an open frame: it emits the escaped
payload, accumulates the checksum over the raw bytes and counts the payload length. -/
def Obligations.WriteEmitsTheEscapedPayload : Prop :=
  ∀ (s : State) (din : List Byte),
    (din.length ≤ 65535 → encode (.write din) = ⟨0x70000000 + word din.length, din⟩) ∧
    (s.txState = .notWriting →
      exec (.write din) s = .next { s with responses := s.responses ++ [⟨.notReady, 0, []⟩] }) ∧
    (s.txState = .writing →
      exec (.write din) s = .next { s with
        txCrc := crcFrom s.txCrc din,
        txSize := addCounting s.cfg.counterMode s.txSize (escBytes s.cfg din).length,
        sink := s.sink ++ escBytes s.cfg din,
        stats := { s.stats with
          writeByteCount := addCounting s.cfg.counterMode s.stats.writeByteCount din.length },
        responses := s.responses ++ [⟨.ok, 0, []⟩] })

/-- 43_encode R84: END_WRITE's encoding, its precondition, and what it does in an open frame: it emits the escaped check
byte and a bare delimiter, records the on-wire size and closes. -/
def Obligations.EndWriteAppendsCheckByteAndDelimiter : Prop :=
  encode .endWrite = ⟨0x80000000, []⟩ ∧
  ∀ s : State,
    (s.txState = .notWriting →
      exec .endWrite s = .next { s with responses := s.responses ++ [⟨.notReady, 0, []⟩] }) ∧
    (s.txState = .writing →
      let size := addCounting s.cfg.counterMode s.txSize ((escByte s.cfg s.txCrc).length + 1)
      exec .endWrite s = .next { s with
        txCrc := 0, txSize := size, txState := .notWriting,
        sink := s.sink ++ escByte s.cfg s.txCrc ++ [s.cfg.delim],
        stats := { s.stats with
          writeByteCount := addCounting s.cfg.counterMode s.stats.writeByteCount 1,
          writeFrameCount := addCounting s.cfg.counterMode s.stats.writeFrameCount 1,
          writeFrameMinSize := if size < s.stats.writeFrameMinSize then size else s.stats.writeFrameMinSize,
          writeFrameMaxSize := if s.stats.writeFrameMaxSize < size then size else s.stats.writeFrameMaxSize },
        responses := s.responses ++ [⟨.ok, 0, []⟩] })

/-- BEGIN_WRITE, any number of WRITEs and END_WRITE put exactly the frame of the joined payload on the sink, and the
recorded on-wire size is its length when that fits in 32 bits (43_encode R82 to R84; the spec's own inference R85). -/
def Obligations.EncoderEmitsExactlyTheWireFrame : Prop :=
  ∀ (s : State) (parts : List (List Byte)), s.txState = .notWriting →
    ∃ t, execAll (.beginWrite :: (parts.map Instr.write ++ [.endWrite])) s = .next t ∧
      t.sink = s.sink ++ wireFrame s.cfg parts.flatten ∧ t.txState = .notWriting ∧
      ((wireFrame s.cfg parts.flatten).length ≤ 4294967295 →
        let size := word (wireFrame s.cfg parts.flatten).length
        t.stats.writeFrameMinSize = (if size < s.stats.writeFrameMinSize then size else s.stats.writeFrameMinSize) ∧
        t.stats.writeFrameMaxSize = (if s.stats.writeFrameMaxSize < size then size else s.stats.writeFrameMaxSize))

/-- The second byte of an escape sequence is never the delimiter and never the escape byte (00_scope R9, 30_encoding
R47; the spec's own inference 00_scope R10). -/
def Obligations.EscapedByteIsNeitherDelimiterNorEscape : Prop :=
  ∀ (cfg : Config) (b : Byte), b = cfg.delim ∨ b = cfg.esc →
    b ^^^ cfg.escXor ≠ cfg.delim ∧ b ^^^ cfg.escXor ≠ cfg.esc

/-- The on-wire size of a frame, its bounds, and that a frame holds the delimiter at its two ends only (30_encoding R46,
R47; the spec's own inference R48). -/
def Obligations.WireFrameSizeAndDelimiters : Prop :=
  ∀ (cfg : Config) (p : List Byte),
    (wireFrame cfg p).length = 2 + (p.map fun b => (escByte cfg b).length).sum + (escByte cfg (crc8 p)).length ∧
    p.length + 3 ≤ (wireFrame cfg p).length ∧ (wireFrame cfg p).length ≤ 2 * p.length + 4 ∧
    ∃ inner, wireFrame cfg p = cfg.delim :: (inner ++ [cfg.delim]) ∧ cfg.delim ∉ inner

/-- What an encoder with the same configuration sends for a payload below `M` bytes, a receiver with an empty ring and
no open session decodes to that payload, consuming exactly what was injected (42_decode R64, R77, 43_encode R82 to R84;
the spec's own inference 42_decode R75). One `WRITE` and one `READ_EXACT` carry at most 65535 bytes (30_encoding R53); an
`INJECT` longer than that stands for several (SplittingTheDataHasTheSameEffect). -/
def Obligations.EncodedFramesRoundTrip : Prop :=
  ∀ (tx rx : State) (p : List Byte), tx.txState = .notWriting → rx.Inv → rx.rxState = .notReading →
    rx.unread = 0 → rx.cfg = tx.cfg → p.length < rx.cfg.maxFrame → p.length ≤ 65535 →
    ∃ (tx' : State) (w : List Byte), execAll [.beginWrite, .write p, .endWrite] tx = .next tx' ∧
      tx'.sink = tx.sink ++ w ∧
      (w.length ≤ rx.cfg.ringCap →
        ∃ rx', execAll [.inject w, .beginRead, .readExact (BitVec.ofNat 16 p.length)] rx = .next rx' ∧
          rx'.responses = rx.responses ++
            [⟨.ok, 0, []⟩, ⟨.ok, word p.length, []⟩, ⟨.ok, word p.length, p⟩] ∧
          rx'.unread = 0 ∧ rx'.tail = word ((rx.tail.toNat + w.length) % rx.cfg.ringCap))

/-! ## Checksum -/

/-- `T[0] = 0`, `T` is a permutation, `T` is linear, and so `T[c XOR v] = 0` exactly when `v = c` (44_checksum R88; the
spec's own inference R92). -/
def Obligations.ChecksumTableIsALinearPermutation : Prop :=
  crcTable 0 = 0 ∧ Function.Bijective crcTable ∧
  (∀ a b : Byte, crcTable (a ^^^ b) = crcTable a ^^^ crcTable b) ∧
  ∀ c v : Byte, crcTable (c ^^^ v) = 0 ↔ v = c

/-- The final running checksum is 0 exactly when the check byte is the checksum of the payload (42_decode R68,
44_checksum R90; the spec's own inferences 42_decode R74 and 44_checksum R91). -/
def Obligations.ChecksumIsZeroExactlyForTheCheckByte : Prop :=
  ∀ (p : List Byte) (c : Byte), crc8 (p ++ [c]) = 0 ↔ c = crc8 p

/-! ## Statistics -/

/-- 45_statistics R100: STAT's encoding, and in every session state its effect: it answers with the counter of that
number (R95) and changes nothing. -/
def Obligations.StatReadsTheNumberedCounter : Prop :=
  ∀ (s : State) (k : Fin 16),
    encode (.stat k) = ⟨0x90000000 + word k.val, []⟩ ∧
    exec (.stat k) s = .next { s with
      responses := s.responses ++ [⟨.ok, ([s.stats.rxFalseStarts, s.stats.rxRejectedEncodingError,
        s.stats.rxRejectedTooBig, s.stats.rxRejectedTooSmall, s.stats.rxRejectedBadCrc8, s.stats.rxFrameCount,
        s.stats.minRxFrameSize, s.stats.maxRxFrameSize, s.stats.readOverreach, s.stats.readDiscardFrameCount,
        s.stats.readDiscardByteCount, s.stats.readByteCount, s.stats.writeFrameMinSize, s.stats.writeFrameMaxSize,
        s.stats.writeFrameCount, s.stats.writeByteCount] : List Word)[k.val]!, []⟩] }

/-- 45_statistics R96: what adding to a counter does under each COUNTER_MODE, for `txSize` too, and that no other
counter changes. -/
def Obligations.CountersWrapOrSaturate : Prop :=
  ∀ (s : State) (c d : Counter) (a : Nat),
    (d ≠ c → (s.count c a).stats.get d = s.stats.get d) ∧
    (s.cfg.counterMode = .wrap →
      ((s.count c a).stats.get c).toNat = ((s.stats.get c).toNat + a) % 2 ^ 32 ∧
      (s.addTxSize a).txSize.toNat = (s.txSize.toNat + a) % 2 ^ 32) ∧
    (s.cfg.counterMode = .saturate →
      ((s.count c a).stats.get c).toNat = min ((s.stats.get c).toNat + a) (2 ^ 32 - 1) ∧
      (s.addTxSize a).txSize.toNat = min (s.txSize.toNat + a) (2 ^ 32 - 1))

/-- No command raises a minimum or lowers a maximum, and while counters saturate none of the other counters falls
(45_statistics R96, R97; the spec's own inference R98, whose `WRAP` case holds only while no counter passes its largest
value). -/
def Obligations.CountersAreMonotone : Prop :=
  ∀ (s t : State) (i : Instr), exec i s = .next t →
    t.stats.minRxFrameSize ≤ s.stats.minRxFrameSize ∧ t.stats.writeFrameMinSize ≤ s.stats.writeFrameMinSize ∧
    s.stats.maxRxFrameSize ≤ t.stats.maxRxFrameSize ∧ s.stats.writeFrameMaxSize ≤ t.stats.writeFrameMaxSize ∧
    (s.cfg.counterMode = .saturate → ∀ c : Counter, c ≠ .minRxFrameSize → c ≠ .writeFrameMinSize →
      s.stats.get c ≤ t.stats.get c)

/-- Each minimum and maximum pair is at its reset values until the first frame and in order after it: so it is at reset,
and every step keeps it (45_statistics R97). -/
def Obligations.StepKeepsSizesOrdered : Prop :=
  State.reset.stats.SizesOrdered ∧
  ∀ s t : State, s.stats.SizesOrdered → step s = .next t → t.stats.SizesOrdered

/-! ## Independence -/

/-- Receive commands neither read nor write the transmit side, and transmit commands neither read nor write the receive
side (41_ingest R60, 42_decode R64, R76 to R78, 43_encode R82 to R84; the spec's own inference 20_memory R45). -/
def Obligations.ReceiveAndTransmitSidesAreIndependent : Prop :=
  ∀ (s u t : State) (i : Instr), exec i s = .next t →
    (isReceiveCommand i = true → s.SameTransmit t ∧ t.sink = s.sink ∧
      (s.SameReceive u → ∃ v r, exec i u = .next v ∧ t.SameReceive v ∧
        t.responses = s.responses ++ [r] ∧ v.responses = u.responses ++ [r])) ∧
    (isTransmitCommand i = true → s.SameReceive t ∧
      (s.SameTransmit u → ∃ v r e, exec i u = .next v ∧ t.SameTransmit v ∧
        t.responses = s.responses ++ [r] ∧ v.responses = u.responses ++ [r] ∧
        t.sink = s.sink ++ e ∧ v.sink = u.sink ++ e))

/-- Nothing observable depends on the ring outside the unread bytes, on where these begin, on the staging buffer and
read registers while no session is open, or on the encoder's registers while no frame is open (the spec's own inference
10_state R15, R19, R31). So nothing observable rests on what these hold after reset, the model's choice (assumption 2). -/
def Obligations.UnobservableStateIsNeverObserved : Prop :=
  ∀ s u t : State, s.Inv → u.Inv → s.Alike u → step s = .next t → ∃ v, step u = .next v ∧ t.Alike v
end

