-- ==== Sys2Proof/Laws/Memory.lean ====
section
/-! SUPPORT. The laws of the two byte memories: every operation keeps the canonical form and the address range, a read
after a write to the same address gives the byte written, and a write leaves every other address alone. -/

namespace Sys2Proof.Machine

/-- A memory canonical from a higher address is canonical from a lower one. -/
theorem Memory.wfFrom_mono {lo lo' : Nat} (h : lo' ≤ lo) {m : Memory} (hm : Memory.wfFrom lo m = true) :
    Memory.wfFrom lo' m = true := by
  cases m with
  | nil => rfl
  | cons c m =>
    obtain ⟨k, v⟩ := c
    simp only [Memory.wfFrom, Bool.and_eq_true, decide_eq_true_eq] at hm ⊢
    exact ⟨⟨by omega, hm.1.2⟩, hm.2⟩

/-- Below its lowest listed address a canonical memory reads 0. -/
theorem Memory.read_below {lo : Nat} {m : Memory} (hm : Memory.wfFrom lo m = true) {a : Nat} (ha : a < lo) :
    Memory.read m a = 0 := by
  induction m generalizing lo with
  | nil => rfl
  | cons c m ih =>
    obtain ⟨k, v⟩ := c
    simp only [Memory.wfFrom, Bool.and_eq_true, decide_eq_true_eq] at hm
    rw [Memory.read, if_neg (by omega)]
    exact ih hm.2 (by omega)

/-- `put` keeps the canonical form. -/
theorem Memory.wfFrom_put {lo a : Nat} {b : Byte} {m : Memory} (ha : lo ≤ a) (hm : Memory.wfFrom (a + 1) m = true) :
    Memory.wfFrom lo (Memory.put a b m) = true := by
  unfold Memory.put
  split
  · exact Memory.wfFrom_mono (by omega) hm
  · rename_i hb
    simpa [Memory.wfFrom, ha, hm] using hb

/-- A write keeps the canonical form. -/
theorem Memory.wfFrom_write {lo a : Nat} {b : Byte} {m : Memory} (ha : lo ≤ a) (hm : Memory.wfFrom lo m = true) :
    Memory.wfFrom lo (Memory.write m a b) = true := by
  induction m generalizing lo with
  | nil => exact Memory.wfFrom_put ha rfl
  | cons c m ih =>
    obtain ⟨k, v⟩ := c
    have hm' := hm
    simp only [Memory.wfFrom, Bool.and_eq_true, decide_eq_true_eq] at hm
    unfold Memory.write
    split
    · rename_i hak
      refine Memory.wfFrom_put ha ?_
      simp only [Memory.wfFrom, Bool.and_eq_true, decide_eq_true_eq]
      exact ⟨⟨by omega, hm.1.2⟩, hm.2⟩
    · split
      · rename_i _ hak
        subst hak
        exact Memory.wfFrom_put ha hm.2
      · simp only [Memory.wfFrom, Bool.and_eq_true, decide_eq_true_eq]
        exact ⟨hm.1, ih (by omega) hm.2⟩

/-- A write keeps the canonical form of a whole memory. -/
theorem Memory.write_wf {m : Memory} (hm : m.wf = true) (a : Nat) (b : Byte) : Memory.wf (Memory.write m a b) = true :=
  Memory.wfFrom_write (Nat.zero_le a) hm

/-- A write to a cell the memory has keeps the address range. -/
theorem Memory.write_within {n a : Nat} {b : Byte} {m : Memory} (ha : a < n) (hm : Memory.within n m = true) :
    Memory.within n (Memory.write m a b) = true := by
  unfold Memory.within at hm ⊢
  induction m with
  | nil => unfold Memory.write Memory.put; split <;> simp [ha]
  | cons c m ih =>
    obtain ⟨k, v⟩ := c
    simp only [List.all_cons, Bool.and_eq_true, decide_eq_true_eq] at hm
    unfold Memory.write
    split
    · unfold Memory.put; split <;> simp [ha, hm.1, hm.2]
    · split
      · unfold Memory.put; split <;> simp [ha, hm.2]
      · simp [hm.1, ih hm.2]

/-- Reading what `put` placed in front of a memory whose addresses are all higher. -/
theorem Memory.read_put_same {a : Nat} {b : Byte} {m : Memory} (hm : Memory.wfFrom (a + 1) m = true) :
    Memory.read (Memory.put a b m) a = b := by
  unfold Memory.put
  split
  · rename_i hb
    rw [Memory.read_below hm (by omega), hb]
  · simp [Memory.read]

/-- `put` leaves the other addresses alone. -/
theorem Memory.read_put_other {a a' : Nat} (h : a' ≠ a) (b : Byte) (m : Memory) :
    Memory.read (Memory.put a b m) a' = Memory.read m a' := by
  unfold Memory.put
  split
  · rfl
  · simp [Memory.read, Ne.symm h]

/-- A read after a write to the same address gives the byte written, in a memory canonical from `lo`. -/
theorem Memory.read_write_same_from {lo : Nat} {m : Memory} (hm : Memory.wfFrom lo m = true) (a : Nat) (b : Byte) :
    Memory.read (Memory.write m a b) a = b := by
  induction m generalizing lo with
  | nil => exact Memory.read_put_same rfl
  | cons c m ih =>
    obtain ⟨k, v⟩ := c
    simp only [Memory.wfFrom, Bool.and_eq_true, decide_eq_true_eq] at hm
    unfold Memory.write
    split
    · refine Memory.read_put_same ?_
      simp only [Memory.wfFrom, Bool.and_eq_true, decide_eq_true_eq]
      exact ⟨⟨by omega, hm.1.2⟩, hm.2⟩
    · split
      · rename_i _ hak
        subst hak
        exact Memory.read_put_same hm.2
      · rename_i _ hak
        rw [Memory.read, if_neg (Ne.symm hak)]
        exact ih hm.2

/-- A read after a write to the same address gives the byte written. -/
theorem Memory.read_write_same {m : Memory} (hm : m.wf = true) (a : Nat) (b : Byte) :
    Memory.read (Memory.write m a b) a = b :=
  Memory.read_write_same_from hm a b

/-- A write leaves every other address alone. -/
theorem Memory.read_write_other {a a' : Nat} (h : a' ≠ a) (b : Byte) (m : Memory) :
    Memory.read (Memory.write m a b) a' = Memory.read m a' := by
  induction m with
  | nil => exact Memory.read_put_other h b []
  | cons c m ih =>
    obtain ⟨k, v⟩ := c
    unfold Memory.write
    split
    · exact Memory.read_put_other h b _
    · split
      · rename_i _ hak
        subst hak
        rw [Memory.read_put_other h, Memory.read, if_neg (Ne.symm h)]
      · simp only [Memory.read, ih]

end Sys2Proof.Machine
end

