-- ==== Sys2Proof/Laws/State.lean ====
section
/-! SUPPORT. One lemma per field per update of the state, each true by unfolding, so that no proof unfolds a record
update; and the laws of reading a counter after writing one. -/

namespace Sys2Proof.Machine

variable (s : State)


/-! ### ringWrite -/

@[simp] theorem State.ringWrite_cfg (i : Nat) (b : Byte) : (s.ringWrite i b).cfg = s.cfg := rfl
@[simp] theorem State.ringWrite_ring (i : Nat) (b : Byte) : (s.ringWrite i b).ring = Memory.write s.ring i b := rfl
@[simp] theorem State.ringWrite_tail (i : Nat) (b : Byte) : (s.ringWrite i b).tail = s.tail := rfl
@[simp] theorem State.ringWrite_unread (i : Nat) (b : Byte) : (s.ringWrite i b).unread = s.unread := rfl
@[simp] theorem State.ringWrite_stage (i : Nat) (b : Byte) : (s.ringWrite i b).stage = s.stage := rfl
@[simp] theorem State.ringWrite_stageSize (i : Nat) (b : Byte) : (s.ringWrite i b).stageSize = s.stageSize := rfl
@[simp] theorem State.ringWrite_cursor (i : Nat) (b : Byte) : (s.ringWrite i b).cursor = s.cursor := rfl
@[simp] theorem State.ringWrite_rxState (i : Nat) (b : Byte) : (s.ringWrite i b).rxState = s.rxState := rfl
@[simp] theorem State.ringWrite_txState (i : Nat) (b : Byte) : (s.ringWrite i b).txState = s.txState := rfl
@[simp] theorem State.ringWrite_txCrc (i : Nat) (b : Byte) : (s.ringWrite i b).txCrc = s.txCrc := rfl
@[simp] theorem State.ringWrite_txSize (i : Nat) (b : Byte) : (s.ringWrite i b).txSize = s.txSize := rfl
@[simp] theorem State.ringWrite_stats (i : Nat) (b : Byte) : (s.ringWrite i b).stats = s.stats := rfl
@[simp] theorem State.ringWrite_host (i : Nat) (b : Byte) : (s.ringWrite i b).host = s.host := rfl
@[simp] theorem State.ringWrite_responses (i : Nat) (b : Byte) : (s.ringWrite i b).responses = s.responses := rfl
@[simp] theorem State.ringWrite_sink (i : Nat) (b : Byte) : (s.ringWrite i b).sink = s.sink := rfl

/-! ### stageWrite -/

@[simp] theorem State.stageWrite_cfg (i : Nat) (b : Byte) : (s.stageWrite i b).cfg = s.cfg := rfl
@[simp] theorem State.stageWrite_ring (i : Nat) (b : Byte) : (s.stageWrite i b).ring = s.ring := rfl
@[simp] theorem State.stageWrite_tail (i : Nat) (b : Byte) : (s.stageWrite i b).tail = s.tail := rfl
@[simp] theorem State.stageWrite_unread (i : Nat) (b : Byte) : (s.stageWrite i b).unread = s.unread := rfl
@[simp] theorem State.stageWrite_stage (i : Nat) (b : Byte) : (s.stageWrite i b).stage = Memory.write s.stage i b := rfl
@[simp] theorem State.stageWrite_stageSize (i : Nat) (b : Byte) : (s.stageWrite i b).stageSize = s.stageSize := rfl
@[simp] theorem State.stageWrite_cursor (i : Nat) (b : Byte) : (s.stageWrite i b).cursor = s.cursor := rfl
@[simp] theorem State.stageWrite_rxState (i : Nat) (b : Byte) : (s.stageWrite i b).rxState = s.rxState := rfl
@[simp] theorem State.stageWrite_txState (i : Nat) (b : Byte) : (s.stageWrite i b).txState = s.txState := rfl
@[simp] theorem State.stageWrite_txCrc (i : Nat) (b : Byte) : (s.stageWrite i b).txCrc = s.txCrc := rfl
@[simp] theorem State.stageWrite_txSize (i : Nat) (b : Byte) : (s.stageWrite i b).txSize = s.txSize := rfl
@[simp] theorem State.stageWrite_stats (i : Nat) (b : Byte) : (s.stageWrite i b).stats = s.stats := rfl
@[simp] theorem State.stageWrite_host (i : Nat) (b : Byte) : (s.stageWrite i b).host = s.host := rfl
@[simp] theorem State.stageWrite_responses (i : Nat) (b : Byte) : (s.stageWrite i b).responses = s.responses := rfl
@[simp] theorem State.stageWrite_sink (i : Nat) (b : Byte) : (s.stageWrite i b).sink = s.sink := rfl

/-! ### consume -/

@[simp] theorem State.consume_cfg (n : Nat) : (s.consume n).cfg = s.cfg := rfl
@[simp] theorem State.consume_ring (n : Nat) : (s.consume n).ring = s.ring := rfl
@[simp] theorem State.consume_tail (n : Nat) : (s.consume n).tail = word (s.advance s.tail.toNat n) := rfl
@[simp] theorem State.consume_unread (n : Nat) : (s.consume n).unread = word (s.unread.toNat - n) := rfl
@[simp] theorem State.consume_stage (n : Nat) : (s.consume n).stage = s.stage := rfl
@[simp] theorem State.consume_stageSize (n : Nat) : (s.consume n).stageSize = s.stageSize := rfl
@[simp] theorem State.consume_cursor (n : Nat) : (s.consume n).cursor = s.cursor := rfl
@[simp] theorem State.consume_rxState (n : Nat) : (s.consume n).rxState = s.rxState := rfl
@[simp] theorem State.consume_txState (n : Nat) : (s.consume n).txState = s.txState := rfl
@[simp] theorem State.consume_txCrc (n : Nat) : (s.consume n).txCrc = s.txCrc := rfl
@[simp] theorem State.consume_txSize (n : Nat) : (s.consume n).txSize = s.txSize := rfl
@[simp] theorem State.consume_stats (n : Nat) : (s.consume n).stats = s.stats := rfl
@[simp] theorem State.consume_host (n : Nat) : (s.consume n).host = s.host := rfl
@[simp] theorem State.consume_responses (n : Nat) : (s.consume n).responses = s.responses := rfl
@[simp] theorem State.consume_sink (n : Nat) : (s.consume n).sink = s.sink := rfl

/-! ### rollback -/

@[simp] theorem State.rollback_cfg (t0 u0 : Word) : (s.rollback t0 u0).cfg = s.cfg := rfl
@[simp] theorem State.rollback_ring (t0 u0 : Word) : (s.rollback t0 u0).ring = s.ring := rfl
@[simp] theorem State.rollback_tail (t0 u0 : Word) : (s.rollback t0 u0).tail = t0 := rfl
@[simp] theorem State.rollback_unread (t0 u0 : Word) : (s.rollback t0 u0).unread = u0 := rfl
@[simp] theorem State.rollback_stage (t0 u0 : Word) : (s.rollback t0 u0).stage = s.stage := rfl
@[simp] theorem State.rollback_stageSize (t0 u0 : Word) : (s.rollback t0 u0).stageSize = s.stageSize := rfl
@[simp] theorem State.rollback_cursor (t0 u0 : Word) : (s.rollback t0 u0).cursor = s.cursor := rfl
@[simp] theorem State.rollback_rxState (t0 u0 : Word) : (s.rollback t0 u0).rxState = s.rxState := rfl
@[simp] theorem State.rollback_txState (t0 u0 : Word) : (s.rollback t0 u0).txState = s.txState := rfl
@[simp] theorem State.rollback_txCrc (t0 u0 : Word) : (s.rollback t0 u0).txCrc = s.txCrc := rfl
@[simp] theorem State.rollback_txSize (t0 u0 : Word) : (s.rollback t0 u0).txSize = s.txSize := rfl
@[simp] theorem State.rollback_stats (t0 u0 : Word) : (s.rollback t0 u0).stats = s.stats := rfl
@[simp] theorem State.rollback_host (t0 u0 : Word) : (s.rollback t0 u0).host = s.host := rfl
@[simp] theorem State.rollback_responses (t0 u0 : Word) : (s.rollback t0 u0).responses = s.responses := rfl
@[simp] theorem State.rollback_sink (t0 u0 : Word) : (s.rollback t0 u0).sink = s.sink := rfl

/-! ### count -/

@[simp] theorem State.count_cfg (c : Counter) (a : Nat) : (s.count c a).cfg = s.cfg := rfl
@[simp] theorem State.count_ring (c : Counter) (a : Nat) : (s.count c a).ring = s.ring := rfl
@[simp] theorem State.count_tail (c : Counter) (a : Nat) : (s.count c a).tail = s.tail := rfl
@[simp] theorem State.count_unread (c : Counter) (a : Nat) : (s.count c a).unread = s.unread := rfl
@[simp] theorem State.count_stage (c : Counter) (a : Nat) : (s.count c a).stage = s.stage := rfl
@[simp] theorem State.count_stageSize (c : Counter) (a : Nat) : (s.count c a).stageSize = s.stageSize := rfl
@[simp] theorem State.count_cursor (c : Counter) (a : Nat) : (s.count c a).cursor = s.cursor := rfl
@[simp] theorem State.count_rxState (c : Counter) (a : Nat) : (s.count c a).rxState = s.rxState := rfl
@[simp] theorem State.count_txState (c : Counter) (a : Nat) : (s.count c a).txState = s.txState := rfl
@[simp] theorem State.count_txCrc (c : Counter) (a : Nat) : (s.count c a).txCrc = s.txCrc := rfl
@[simp] theorem State.count_txSize (c : Counter) (a : Nat) : (s.count c a).txSize = s.txSize := rfl
@[simp] theorem State.count_stats (c : Counter) (a : Nat) : (s.count c a).stats = s.stats.set c (addCounting s.cfg.counterMode (s.stats.get c) a) := rfl
@[simp] theorem State.count_host (c : Counter) (a : Nat) : (s.count c a).host = s.host := rfl
@[simp] theorem State.count_responses (c : Counter) (a : Nat) : (s.count c a).responses = s.responses := rfl
@[simp] theorem State.count_sink (c : Counter) (a : Nat) : (s.count c a).sink = s.sink := rfl

/-! ### lower -/

@[simp] theorem State.lower_cfg (c : Counter) (v : Word) : (s.lower c v).cfg = s.cfg := rfl
@[simp] theorem State.lower_ring (c : Counter) (v : Word) : (s.lower c v).ring = s.ring := rfl
@[simp] theorem State.lower_tail (c : Counter) (v : Word) : (s.lower c v).tail = s.tail := rfl
@[simp] theorem State.lower_unread (c : Counter) (v : Word) : (s.lower c v).unread = s.unread := rfl
@[simp] theorem State.lower_stage (c : Counter) (v : Word) : (s.lower c v).stage = s.stage := rfl
@[simp] theorem State.lower_stageSize (c : Counter) (v : Word) : (s.lower c v).stageSize = s.stageSize := rfl
@[simp] theorem State.lower_cursor (c : Counter) (v : Word) : (s.lower c v).cursor = s.cursor := rfl
@[simp] theorem State.lower_rxState (c : Counter) (v : Word) : (s.lower c v).rxState = s.rxState := rfl
@[simp] theorem State.lower_txState (c : Counter) (v : Word) : (s.lower c v).txState = s.txState := rfl
@[simp] theorem State.lower_txCrc (c : Counter) (v : Word) : (s.lower c v).txCrc = s.txCrc := rfl
@[simp] theorem State.lower_txSize (c : Counter) (v : Word) : (s.lower c v).txSize = s.txSize := rfl
@[simp] theorem State.lower_stats (c : Counter) (v : Word) : (s.lower c v).stats = s.stats.set c (if v < s.stats.get c then v else s.stats.get c) := rfl
@[simp] theorem State.lower_host (c : Counter) (v : Word) : (s.lower c v).host = s.host := rfl
@[simp] theorem State.lower_responses (c : Counter) (v : Word) : (s.lower c v).responses = s.responses := rfl
@[simp] theorem State.lower_sink (c : Counter) (v : Word) : (s.lower c v).sink = s.sink := rfl

/-! ### raise -/

@[simp] theorem State.raise_cfg (c : Counter) (v : Word) : (s.raise c v).cfg = s.cfg := rfl
@[simp] theorem State.raise_ring (c : Counter) (v : Word) : (s.raise c v).ring = s.ring := rfl
@[simp] theorem State.raise_tail (c : Counter) (v : Word) : (s.raise c v).tail = s.tail := rfl
@[simp] theorem State.raise_unread (c : Counter) (v : Word) : (s.raise c v).unread = s.unread := rfl
@[simp] theorem State.raise_stage (c : Counter) (v : Word) : (s.raise c v).stage = s.stage := rfl
@[simp] theorem State.raise_stageSize (c : Counter) (v : Word) : (s.raise c v).stageSize = s.stageSize := rfl
@[simp] theorem State.raise_cursor (c : Counter) (v : Word) : (s.raise c v).cursor = s.cursor := rfl
@[simp] theorem State.raise_rxState (c : Counter) (v : Word) : (s.raise c v).rxState = s.rxState := rfl
@[simp] theorem State.raise_txState (c : Counter) (v : Word) : (s.raise c v).txState = s.txState := rfl
@[simp] theorem State.raise_txCrc (c : Counter) (v : Word) : (s.raise c v).txCrc = s.txCrc := rfl
@[simp] theorem State.raise_txSize (c : Counter) (v : Word) : (s.raise c v).txSize = s.txSize := rfl
@[simp] theorem State.raise_stats (c : Counter) (v : Word) : (s.raise c v).stats = s.stats.set c (if s.stats.get c < v then v else s.stats.get c) := rfl
@[simp] theorem State.raise_host (c : Counter) (v : Word) : (s.raise c v).host = s.host := rfl
@[simp] theorem State.raise_responses (c : Counter) (v : Word) : (s.raise c v).responses = s.responses := rfl
@[simp] theorem State.raise_sink (c : Counter) (v : Word) : (s.raise c v).sink = s.sink := rfl

/-! ### emit -/

@[simp] theorem State.emit_cfg (b : Byte) : (s.emit b).cfg = s.cfg := rfl
@[simp] theorem State.emit_ring (b : Byte) : (s.emit b).ring = s.ring := rfl
@[simp] theorem State.emit_tail (b : Byte) : (s.emit b).tail = s.tail := rfl
@[simp] theorem State.emit_unread (b : Byte) : (s.emit b).unread = s.unread := rfl
@[simp] theorem State.emit_stage (b : Byte) : (s.emit b).stage = s.stage := rfl
@[simp] theorem State.emit_stageSize (b : Byte) : (s.emit b).stageSize = s.stageSize := rfl
@[simp] theorem State.emit_cursor (b : Byte) : (s.emit b).cursor = s.cursor := rfl
@[simp] theorem State.emit_rxState (b : Byte) : (s.emit b).rxState = s.rxState := rfl
@[simp] theorem State.emit_txState (b : Byte) : (s.emit b).txState = s.txState := rfl
@[simp] theorem State.emit_txCrc (b : Byte) : (s.emit b).txCrc = s.txCrc := rfl
@[simp] theorem State.emit_txSize (b : Byte) : (s.emit b).txSize = s.txSize := rfl
@[simp] theorem State.emit_stats (b : Byte) : (s.emit b).stats = s.stats := rfl
@[simp] theorem State.emit_host (b : Byte) : (s.emit b).host = s.host := rfl
@[simp] theorem State.emit_responses (b : Byte) : (s.emit b).responses = s.responses := rfl
@[simp] theorem State.emit_sink (b : Byte) : (s.emit b).sink = s.sink ++ [b] := rfl

/-! ### addTxSize -/

@[simp] theorem State.addTxSize_cfg (a : Nat) : (s.addTxSize a).cfg = s.cfg := rfl
@[simp] theorem State.addTxSize_ring (a : Nat) : (s.addTxSize a).ring = s.ring := rfl
@[simp] theorem State.addTxSize_tail (a : Nat) : (s.addTxSize a).tail = s.tail := rfl
@[simp] theorem State.addTxSize_unread (a : Nat) : (s.addTxSize a).unread = s.unread := rfl
@[simp] theorem State.addTxSize_stage (a : Nat) : (s.addTxSize a).stage = s.stage := rfl
@[simp] theorem State.addTxSize_stageSize (a : Nat) : (s.addTxSize a).stageSize = s.stageSize := rfl
@[simp] theorem State.addTxSize_cursor (a : Nat) : (s.addTxSize a).cursor = s.cursor := rfl
@[simp] theorem State.addTxSize_rxState (a : Nat) : (s.addTxSize a).rxState = s.rxState := rfl
@[simp] theorem State.addTxSize_txState (a : Nat) : (s.addTxSize a).txState = s.txState := rfl
@[simp] theorem State.addTxSize_txCrc (a : Nat) : (s.addTxSize a).txCrc = s.txCrc := rfl
@[simp] theorem State.addTxSize_txSize (a : Nat) : (s.addTxSize a).txSize = addCounting s.cfg.counterMode s.txSize a := rfl
@[simp] theorem State.addTxSize_stats (a : Nat) : (s.addTxSize a).stats = s.stats := rfl
@[simp] theorem State.addTxSize_host (a : Nat) : (s.addTxSize a).host = s.host := rfl
@[simp] theorem State.addTxSize_responses (a : Nat) : (s.addTxSize a).responses = s.responses := rfl
@[simp] theorem State.addTxSize_sink (a : Nat) : (s.addTxSize a).sink = s.sink := rfl

/-! ### respond -/

@[simp] theorem State.respond_cfg (x : Status) (v : Word) (d : List Byte) : (s.respond x v d).cfg = s.cfg := rfl
@[simp] theorem State.respond_ring (x : Status) (v : Word) (d : List Byte) : (s.respond x v d).ring = s.ring := rfl
@[simp] theorem State.respond_tail (x : Status) (v : Word) (d : List Byte) : (s.respond x v d).tail = s.tail := rfl
@[simp] theorem State.respond_unread (x : Status) (v : Word) (d : List Byte) : (s.respond x v d).unread = s.unread := rfl
@[simp] theorem State.respond_stage (x : Status) (v : Word) (d : List Byte) : (s.respond x v d).stage = s.stage := rfl
@[simp] theorem State.respond_stageSize (x : Status) (v : Word) (d : List Byte) : (s.respond x v d).stageSize = s.stageSize := rfl
@[simp] theorem State.respond_cursor (x : Status) (v : Word) (d : List Byte) : (s.respond x v d).cursor = s.cursor := rfl
@[simp] theorem State.respond_rxState (x : Status) (v : Word) (d : List Byte) : (s.respond x v d).rxState = s.rxState := rfl
@[simp] theorem State.respond_txState (x : Status) (v : Word) (d : List Byte) : (s.respond x v d).txState = s.txState := rfl
@[simp] theorem State.respond_txCrc (x : Status) (v : Word) (d : List Byte) : (s.respond x v d).txCrc = s.txCrc := rfl
@[simp] theorem State.respond_txSize (x : Status) (v : Word) (d : List Byte) : (s.respond x v d).txSize = s.txSize := rfl
@[simp] theorem State.respond_stats (x : Status) (v : Word) (d : List Byte) : (s.respond x v d).stats = s.stats := rfl
@[simp] theorem State.respond_host (x : Status) (v : Word) (d : List Byte) : (s.respond x v d).host = s.host := rfl
@[simp] theorem State.respond_responses (x : Status) (v : Word) (d : List Byte) : (s.respond x v d).responses = s.responses ++ [{ status := x, value := v, dout := d }] := rfl
@[simp] theorem State.respond_sink (x : Status) (v : Word) (d : List Byte) : (s.respond x v d).sink = s.sink := rfl

/-! ### fail -/

@[simp] theorem State.fail_cfg (x : Status) : (s.fail x).cfg = s.cfg := rfl
@[simp] theorem State.fail_ring (x : Status) : (s.fail x).ring = s.ring := rfl
@[simp] theorem State.fail_tail (x : Status) : (s.fail x).tail = s.tail := rfl
@[simp] theorem State.fail_unread (x : Status) : (s.fail x).unread = s.unread := rfl
@[simp] theorem State.fail_stage (x : Status) : (s.fail x).stage = s.stage := rfl
@[simp] theorem State.fail_stageSize (x : Status) : (s.fail x).stageSize = s.stageSize := rfl
@[simp] theorem State.fail_cursor (x : Status) : (s.fail x).cursor = s.cursor := rfl
@[simp] theorem State.fail_rxState (x : Status) : (s.fail x).rxState = s.rxState := rfl
@[simp] theorem State.fail_txState (x : Status) : (s.fail x).txState = s.txState := rfl
@[simp] theorem State.fail_txCrc (x : Status) : (s.fail x).txCrc = s.txCrc := rfl
@[simp] theorem State.fail_txSize (x : Status) : (s.fail x).txSize = s.txSize := rfl
@[simp] theorem State.fail_stats (x : Status) : (s.fail x).stats = s.stats := rfl
@[simp] theorem State.fail_host (x : Status) : (s.fail x).host = s.host := rfl
@[simp] theorem State.fail_responses (x : Status) : (s.fail x).responses = s.responses ++ [{ status := x, value := 0, dout := [] }] := rfl
@[simp] theorem State.fail_sink (x : Status) : (s.fail x).sink = s.sink := rfl

/-! ### applyReset -/

@[simp] theorem State.applyReset_cfg (cfg : Config) : (s.applyReset cfg).cfg = (State.resetWith cfg).cfg := rfl
@[simp] theorem State.applyReset_ring (cfg : Config) : (s.applyReset cfg).ring = (State.resetWith cfg).ring := rfl
@[simp] theorem State.applyReset_tail (cfg : Config) : (s.applyReset cfg).tail = (State.resetWith cfg).tail := rfl
@[simp] theorem State.applyReset_unread (cfg : Config) : (s.applyReset cfg).unread = (State.resetWith cfg).unread := rfl
@[simp] theorem State.applyReset_stage (cfg : Config) : (s.applyReset cfg).stage = (State.resetWith cfg).stage := rfl
@[simp] theorem State.applyReset_stageSize (cfg : Config) : (s.applyReset cfg).stageSize = (State.resetWith cfg).stageSize := rfl
@[simp] theorem State.applyReset_cursor (cfg : Config) : (s.applyReset cfg).cursor = (State.resetWith cfg).cursor := rfl
@[simp] theorem State.applyReset_rxState (cfg : Config) : (s.applyReset cfg).rxState = (State.resetWith cfg).rxState := rfl
@[simp] theorem State.applyReset_txState (cfg : Config) : (s.applyReset cfg).txState = (State.resetWith cfg).txState := rfl
@[simp] theorem State.applyReset_txCrc (cfg : Config) : (s.applyReset cfg).txCrc = (State.resetWith cfg).txCrc := rfl
@[simp] theorem State.applyReset_txSize (cfg : Config) : (s.applyReset cfg).txSize = (State.resetWith cfg).txSize := rfl
@[simp] theorem State.applyReset_stats (cfg : Config) : (s.applyReset cfg).stats = (State.resetWith cfg).stats := rfl
@[simp] theorem State.applyReset_host (cfg : Config) : (s.applyReset cfg).host = s.host := rfl
@[simp] theorem State.applyReset_responses (cfg : Config) : (s.applyReset cfg).responses = s.responses := rfl
@[simp] theorem State.applyReset_sink (cfg : Config) : (s.applyReset cfg).sink = s.sink := rfl

/-! ### Counters -/

/-- Writing one counter leaves the others and gives back what was written. -/
theorem Stats.get_set (x : Stats) (c d : Counter) (v : Word) :
    (x.set c v).get d = if d = c then v else x.get d := by
  cases c <;> cases d <;> rfl

@[simp] theorem Stats.get_set_same (x : Stats) (c : Counter) (v : Word) : (x.set c v).get c = v := by
  simp [Stats.get_set]

theorem Stats.get_set_other (x : Stats) {c d : Counter} (v : Word) (h : d ≠ c) : (x.set c v).get d = x.get d := by
  simp [Stats.get_set, h]

/-- Writing back what a counter holds changes nothing. -/
@[simp] theorem Stats.set_get (x : Stats) (c : Counter) : x.set c (x.get c) = x := by cases c <;> rfl

/-- The later of two writes to one counter stays. -/
@[simp] theorem Stats.set_set (x : Stats) (c : Counter) (v w : Word) : (x.set c v).set c w = x.set c w := by
  cases c <;> rfl

/-- Two statistics with the same counters are the same. -/
theorem Stats.ext_get {x y : Stats} (h : ∀ c, x.get c = y.get c) : x = y := by
  cases x; cases y
  simp only [Stats.mk.injEq]
  exact ⟨h .rxFalseStarts, h .rxRejectedEncodingError, h .rxRejectedTooBig, h .rxRejectedTooSmall,
    h .rxRejectedBadCrc8, h .rxFrameCount, h .minRxFrameSize, h .maxRxFrameSize, h .readOverreach,
    h .readDiscardFrameCount, h .readDiscardByteCount, h .readByteCount, h .writeFrameMinSize,
    h .writeFrameMaxSize, h .writeFrameCount, h .writeByteCount⟩

end Sys2Proof.Machine
end

