-- ==== Sys2Proof/Laws/Ops.lean ====
section
/-! SUPPORT. One lemma per shared operation that says everything it can do: the 32-bit registers, the configuration's
bounds, counting, the ring, the session checks and the copy out of the staging buffer. -/

namespace Sys2Proof.Machine

/-! ## Registers and configuration -/

/-- A register holds any number below `2^32`. -/
theorem word_toNat {n : Nat} (h : n < 4294967296) : (word n).toNat = n := by
  simpa [word] using Nat.mod_eq_of_lt h

/-- Writing back the number a register holds. -/
@[simp] theorem word_of_toNat (x : Word) : word x.toNat = x := by simp [word]

theorem maxFrame_pos (cfg : Config) : 0 < cfg.maxFrame := cfg.valid.2.2.2.1

theorem ringCap_lt (cfg : Config) : cfg.ringCap < 4294967296 :=
  Nat.lt_of_le_of_lt cfg.valid.2.2.2.2.2 (by decide)

theorem maxFrame_le_ringCap (cfg : Config) : cfg.maxFrame ≤ cfg.ringCap :=
  Nat.le_mul_of_pos_right _ cfg.valid.2.2.2.2.1

theorem ringCap_pos (cfg : Config) : 0 < cfg.ringCap :=
  Nat.lt_of_lt_of_le (maxFrame_pos cfg) (maxFrame_le_ringCap cfg)

/-! ## Counting -/

theorem addCounting_wrap (x : Word) (a : Nat) : (addCounting .wrap x a).toNat = (x.toNat + a) % 4294967296 :=
  word_toNat (Nat.mod_lt _ (by decide))

theorem addCounting_saturate (x : Word) (a : Nat) : (addCounting .saturate x a).toNat = min (x.toNat + a) 4294967295 :=
  word_toNat (by omega)

@[simp] theorem addCounting_zero (m : CounterMode) (x : Word) : addCounting m x 0 = x := by
  apply BitVec.eq_of_toNat_eq
  have := x.isLt
  cases m
  · rw [addCounting_wrap]; omega
  · rw [addCounting_saturate]; omega

/-- Counting in two portions is counting their sum, in both modes. -/
theorem addCounting_addCounting (m : CounterMode) (x : Word) (a b : Nat) :
    addCounting m (addCounting m x a) b = addCounting m x (a + b) := by
  apply BitVec.eq_of_toNat_eq
  cases m
  · simp only [addCounting_wrap]; omega
  · simp only [addCounting_saturate]; omega

/-! ## The ring -/

theorem advance_lt (s : State) (i offset : Nat) : s.advance i offset < s.cfg.ringCap := Nat.mod_lt _ (ringCap_pos _)

@[simp] theorem unreadBytes_length (s : State) : s.unreadBytes.length = s.unread.toNat := by
  simp [State.unreadBytes]

/-- The unread bytes depend on the ring, its two registers and its capacity only. -/
theorem unreadBytes_congr {s t : State} (hr : t.ring = s.ring) (ht : t.tail = s.tail) (hu : t.unread = s.unread)
    (hc : t.cfg = s.cfg) : t.unreadBytes = s.unreadBytes := by
  simp [State.unreadBytes, State.ringRead, State.advance, hr, ht, hu, hc]

/-- A full ring drops the byte. -/
theorem ringAppend_full {s : State} (b : Byte) (h : s.cfg.ringCap ≤ s.unread.toNat) : s.ringAppend b = s := by
  simp [State.ringAppend, Nat.not_lt.mpr h]

/-- A ring with room takes the byte at its head index. -/
theorem ringAppend_room {s : State} (b : Byte) (h : s.unread.toNat < s.cfg.ringCap) :
    s.ringAppend b = { s with
      ring := Memory.write s.ring (s.advance s.tail.toNat s.unread.toNat) b
      unread := word (s.unread.toNat + 1) } := by
  simp [State.ringAppend, h, State.ringWrite]

/-- Appending writes the ring and `unread` only. -/
theorem ringAppend_frame (s : State) (b : Byte) :
    s.ringAppend b = { s with ring := (s.ringAppend b).ring, unread := (s.ringAppend b).unread } := by
  unfold State.ringAppend; split <;> rfl

/-- Consuming `n` of the unread bytes leaves the later ones. -/
theorem unreadBytes_consume (s : State) {n : Nat} (h : n ≤ s.unread.toNat) :
    (s.consume n).unreadBytes = s.unreadBytes.drop n := by
  have hu : (word (s.unread.toNat - n)).toNat = s.unread.toNat - n := word_toNat (by have := s.unread.isLt; omega)
  have ht : (word ((s.tail.toNat + n) % s.cfg.ringCap)).toNat = (s.tail.toNat + n) % s.cfg.ringCap :=
    word_toNat (Nat.lt_trans (advance_lt _ _ _) (ringCap_lt _))
  apply List.ext_getElem
  · simp [hu]
  · intro j h1 h2
    simp only [State.unreadBytes, List.getElem_map, List.getElem_range, List.getElem_drop, State.ringRead,
      State.consume_ring, State.consume_tail, State.advance, State.consume_cfg]
    rw [ht, Nat.mod_add_mod, Nat.add_assoc]

/-! ## Session checks -/

theorem whenNotReading_pass {s : State} (r : Result) (h : s.rxState = .notReading) : whenNotReading s r = r := by
  simp [whenNotReading, h]

theorem whenNotReading_stop {s : State} (r : Result) (h : s.rxState = .reading) :
    whenNotReading s r = .next (s.fail .notReady) := by simp [whenNotReading, h]

theorem whenReading_pass {s : State} (r : Result) (h : s.rxState = .reading) : whenReading s r = r := by
  simp [whenReading, h]

theorem whenReading_stop {s : State} (r : Result) (h : s.rxState = .notReading) :
    whenReading s r = .next (s.fail .notReady) := by simp [whenReading, h]

theorem whenNotWriting_pass {s : State} (r : Result) (h : s.txState = .notWriting) : whenNotWriting s r = r := by
  simp [whenNotWriting, h]

theorem whenNotWriting_stop {s : State} (r : Result) (h : s.txState = .writing) :
    whenNotWriting s r = .next (s.fail .notReady) := by simp [whenNotWriting, h]

theorem whenWriting_pass {s : State} (r : Result) (h : s.txState = .writing) : whenWriting s r = r := by
  simp [whenWriting, h]

theorem whenWriting_stop {s : State} (r : Result) (h : s.txState = .notWriting) :
    whenWriting s r = .next (s.fail .notReady) := by simp [whenWriting, h]

/-! ## The copy out of the staging buffer -/

theorem payloadLeft_eq {s : State} (h : s.cursor.toNat ≤ s.stageSize.toNat) :
    s.payloadLeft = some (s.stageSize.toNat - s.cursor.toNat) := by simp [State.payloadLeft, h]

theorem stagedBytes_length {s : State} {k : Nat} {bytes : List Byte} (h : s.stagedBytes k = some bytes) :
    bytes.length = k := by
  unfold State.stagedBytes at h
  split at h
  · cases h; simp
  · cases h

/-- A copy writes the cursor and two counters only. -/
theorem afterCopy_eq (s : State) (k wanted : Nat) : s.afterCopy k wanted = { s with
    cursor := word (s.cursor.toNat + k),
    stats := { s.stats with
      readByteCount := addCounting s.cfg.counterMode s.stats.readByteCount k,
      readOverreach := if k < wanted then addCounting s.cfg.counterMode s.stats.readOverreach 1
        else s.stats.readOverreach } } := by
  unfold State.afterCopy
  by_cases h : k < wanted <;> simp [h, State.count, Stats.set, Stats.get]

/-- In a legal session the copy takes what is asked for as far as payload is left. -/
theorem copyOut_ok {s : State} (hc : s.cursor.toNat ≤ s.stageSize.toNat) (hm : s.stageSize.toNat < s.cfg.maxFrame)
    (wanted : Nat) :
    s.copyOut wanted = .ok
      ((List.range (min wanted (s.stageSize.toNat - s.cursor.toNat))).map fun j => s.stageRead (s.cursor.toNat + j),
        s.afterCopy (min wanted (s.stageSize.toNat - s.cursor.toNat)) wanted) := by
  simp only [State.copyOut, payloadLeft_eq hc, State.stagedBytes]
  rw [if_pos (by omega)]

/-- A copy that is given is the cursor, the two counters and as many bytes as the cursor moved. -/
theorem copyOut_cases {s t : State} {wanted : Nat} {bytes : List Byte} (h : s.copyOut wanted = .ok (bytes, t)) :
    s.cursor.toNat ≤ s.stageSize.toNat ∧ bytes.length = min wanted (s.stageSize.toNat - s.cursor.toNat) ∧
      t = s.afterCopy (min wanted (s.stageSize.toNat - s.cursor.toNat)) wanted := by
  unfold State.copyOut at h
  split at h
  · cases h
  · rename_i rem hrem
    unfold State.payloadLeft at hrem
    split at hrem
    · cases hrem
      split at h
      · cases h
      · rename_i hc _ bytes' hb
        cases h
        exact ⟨hc, stagedBytes_length hb, rfl⟩
    · cases hrem

end Sys2Proof.Machine
end

