-- ==== Sys2Proof/Laws/Scan.lean ====
section
/-! SUPPORT. What a scan does (42_decode R64): everything it can write and what its result depends on, and its course
over stray bytes, the opening delimiter, content bytes and the closing delimiter. -/

namespace Sys2Proof.Machine

/-! ## Storing several bytes -/

/-- Write a byte sequence to consecutive cells. -/
def Memory.writeAll : Memory → Nat → List Byte → Memory
  | m, _, [] => m
  | m, i, b :: bs => Memory.writeAll (Memory.write m i b) (i + 1) bs

theorem Memory.writeAll_wf {m : Memory} (hm : m.wf = true) (i : Nat) (bs : List Byte) :
    Memory.wf (Memory.writeAll m i bs) = true := by
  induction bs generalizing m i with
  | nil => exact hm
  | cons b bs ih => exact ih (Memory.write_wf hm i b) (i + 1)

theorem Memory.writeAll_within {n : Nat} {m : Memory} {bs : List Byte} {i : Nat} (hm : Memory.within n m = true)
    (hi : i + bs.length ≤ n) : Memory.within n (Memory.writeAll m i bs) = true := by
  induction bs generalizing m i with
  | nil => exact hm
  | cons b bs ih =>
    rw [List.length_cons] at hi
    exact ih (Memory.write_within (by omega) hm) (by omega)

/-- Cells outside the stretch written keep their bytes. -/
theorem Memory.read_writeAll_other {m : Memory} {bs : List Byte} {i a : Nat} (h : a < i ∨ i + bs.length ≤ a) :
    Memory.read (Memory.writeAll m i bs) a = Memory.read m a := by
  induction bs generalizing m i with
  | nil => rfl
  | cons b bs ih =>
    rw [List.length_cons] at h
    rw [Memory.writeAll, ih (by omega), Memory.read_write_other (by omega)]

/-- Cells of the stretch hold the bytes written. -/
theorem Memory.read_writeAll {m : Memory} (hm : m.wf = true) {bs : List Byte} {i j : Nat} (hj : j < bs.length) :
    Memory.read (Memory.writeAll m i bs) (i + j) = bs[j] := by
  induction bs generalizing m i j with
  | nil => simp at hj
  | cons b bs ih =>
    rw [Memory.writeAll]
    cases j with
    | zero => rw [Memory.read_writeAll_other (by omega)]; exact Memory.read_write_same hm i b
    | succ j =>
      have := ih (m := Memory.write m i b) (Memory.write_wf hm i b) (i := i + 1) (j := j) (by simpa using hj)
      simpa [Nat.add_assoc, Nat.add_comm 1 j] using this

theorem Memory.writeAll_append (m : Memory) (i : Nat) (u v : List Byte) :
    Memory.writeAll m i (u ++ v) = Memory.writeAll (Memory.writeAll m i u) (i + u.length) v := by
  induction u generalizing m i with
  | nil => rfl
  | cons b u ih => simp [Memory.writeAll, ih, Nat.add_assoc, Nat.add_comm 1 u.length]

/-- Writing from cell 0 on stages the bytes over what was there. -/
theorem stagedOver_writeAll {m : Memory} (hm : m.wf = true) (v : List Byte) :
    StagedOver m (Memory.writeAll m 0 v) v :=
  ⟨fun j hj => by simpa using Memory.read_writeAll hm (i := 0) hj,
    fun a ha => Memory.read_writeAll_other (Or.inr (by simpa using ha))⟩

/-! ## Everything a scan can do -/

/-- What a scan leaves of a state: some stray bytes counted, some bytes staged, nothing else. -/
def State.scanned (s : State) (k i : Nat) (v : List Byte) : State :=
  { s.count .rxFalseStarts k with stage := Memory.writeAll s.stage i v }

@[simp] theorem scanned_cfg (s : State) (k i : Nat) (v : List Byte) : (s.scanned k i v).cfg = s.cfg := rfl

/-- A scan that counts and stages nothing leaves the state as it was. -/
@[simp] theorem scanned_nothing (s : State) (i : Nat) : s.scanned 0 i [] = s := by
  simp [State.scanned, State.count, Memory.writeAll]

/-- Two stretches of one scan. -/
theorem scanned_scanned (s : State) (k l i : Nat) (u v : List Byte) :
    (s.scanned k i u).scanned l (i + u.length) v = s.scanned (k + l) i (u ++ v) := by
  simp [State.scanned, State.count, Memory.writeAll_append, addCounting_addCounting]

/-- What one byte does to a scan from working values `w` is the same in every state with this configuration: it counts
some stray bytes, stages some bytes after those stored so far, and goes on or ends. -/
def ByteEffect (cfg : Config) (w : Scan) (f : State → ScanStep) : Prop :=
  ∃ w' k v, w'.dlen = w.dlen + v.length ∧ w'.n = w.n ∧ (w.dlen ≤ cfg.maxFrame → w'.dlen ≤ cfg.maxFrame) ∧
    ((∀ s : State, s.cfg = cfg → f s = .more w' (s.scanned k w.dlen v)) ∨
      ∃ e, ∀ s : State, s.cfg = cfg → f s = .stop e w' (s.scanned k w.dlen v))

theorem scanStore_effect (cfg : Config) (v : Byte) (w : Scan) : ByteEffect cfg w (scanStore v w) := by
  by_cases hm : w.dlen = cfg.maxFrame
  · exact ⟨w, 0, [], rfl, rfl, id, .inr ⟨.tooBig, fun s hs => by simp [scanStore, hs, hm]⟩⟩
  · refine ⟨{ w with dlen := w.dlen + 1, rxCrc := crcUpdate w.rxCrc v }, 0, [v], rfl, rfl,
      fun h => Nat.lt_of_le_of_ne h hm, .inl fun s hs => ?_⟩
    subst hs
    simp [scanStore, hm, State.scanned, Memory.writeAll, State.stageWrite, State.count]

theorem scanContent_effect (cfg : Config) (b : Byte) (w : Scan) : ByteEffect cfg w (scanContent b w) := by
  by_cases hp : w.pend
  · obtain ⟨w', k, v, h1, h2, h3, h4⟩ := scanStore_effect cfg (b ^^^ cfg.escXor) { w with pend := false }
    refine ⟨w', k, v, h1, h2, h3, h4.imp (fun h s hs => ?_) fun ⟨e, h⟩ => ⟨e, fun s hs => ?_⟩⟩ <;>
      simpa [scanContent, hp, hs] using h s hs
  · by_cases he : b = cfg.esc
    · exact ⟨{ w with pend := true }, 0, [], rfl, rfl, id, .inl fun s hs => by simp [scanContent, hp, hs, he]⟩
    · obtain ⟨w', k, v, h1, h2, h3, h4⟩ := scanStore_effect cfg b w
      refine ⟨w', k, v, h1, h2, h3, h4.imp (fun h s hs => ?_) fun ⟨e, h⟩ => ⟨e, fun s hs => ?_⟩⟩ <;>
        simpa [scanContent, hp, hs, he] using h s hs

/-- One scanned byte is counted in `n` and has an effect of that shape. -/
theorem scanByte_effect (cfg : Config) (b : Byte) (w : Scan) :
    ByteEffect cfg { w with n := w.n + 1 } (scanByte b w) := by
  by_cases hd : b = cfg.delim
  · by_cases hl : w.limitCount + 1 = 2
    · exact ⟨{ w with n := w.n + 1, limitCount := w.limitCount + 1 }, 0, [], rfl, rfl, id,
        .inr ⟨.frameEnd, fun s hs => by subst hs; simp only [scanByte, hd, hl, if_true, scanned_nothing]⟩⟩
    · exact ⟨{ w with n := w.n + 1, limitCount := w.limitCount + 1 }, 0, [], rfl, rfl, id,
        .inl fun s hs => by subst hs; simp only [scanByte, hd, hl, if_true, if_false, scanned_nothing]⟩
  · by_cases hl : w.limitCount = 0
    · exact ⟨{ w with n := w.n + 1 }, 1, [], rfl, rfl, id,
        .inl fun s hs => by subst hs; simp only [scanByte, hd, hl, if_true, if_false]; rfl⟩
    · obtain ⟨w', k, v, h1, h2, h3, h4⟩ := scanContent_effect cfg b { w with n := w.n + 1 }
      refine ⟨w', k, v, h1, h2, h3, h4.imp (fun h s hs => ?_) fun ⟨e, h⟩ => ⟨e, fun s hs => ?_⟩⟩ <;>
        simpa [scanByte, hd, hl, hs] using h s hs

/-- A whole scan: how it ends, its working values, how many stray bytes it counts and which bytes it stages depend on
the bytes and the configuration only; it writes nothing else and stages at most `M` bytes. -/
theorem scanBytes_cases (cfg : Config) (bs : List Byte) (w : Scan) :
    ∃ e w' k v, w'.dlen = w.dlen + v.length ∧ w'.n ≤ w.n + bs.length ∧
      (w.dlen ≤ cfg.maxFrame → w'.dlen ≤ cfg.maxFrame) ∧
      ∀ s : State, s.cfg = cfg → scanBytes bs w s = (e, w', s.scanned k w.dlen v) := by
  induction bs generalizing w with
  | nil => exact ⟨.exhausted, w, 0, [], rfl, by simp, id, fun s _ => by simp [scanBytes]⟩
  | cons b bs ih =>
    obtain ⟨w1, k1, v1, hd1, hn1, hm1, h1 | ⟨e, h1⟩⟩ := scanByte_effect cfg b w <;>
      simp only at hd1 hn1 hm1 h1
    · obtain ⟨e, w2, k2, v2, hd2, hn2, hm2, h2⟩ := ih w1
      refine ⟨e, w2, k1 + k2, v1 ++ v2, by simp; omega, by simp; omega, fun h => hm2 (hm1 h), fun s hs => ?_⟩
      simp only [scanBytes, h1 s hs]
      rw [h2 (s.scanned k1 w.dlen v1) hs, hd1, scanned_scanned]
    · exact ⟨e, w1, k1, v1, hd1, by simp; omega, hm1, fun s hs => by simp [scanBytes, h1 s hs]⟩

/-! ## The course of a scan over one frame -/

/-- Stray bytes are counted and passed over. -/
theorem scanBytes_strays {bs : List Byte} (rest : List Byte) {w : Scan} {s : State} (hl : w.limitCount = 0)
    (hd : s.cfg.delim ∉ bs) :
    scanBytes (bs ++ rest) w s = scanBytes rest { w with n := w.n + bs.length } (s.count .rxFalseStarts bs.length) := by
  induction bs generalizing w s with
  | nil => simp [State.count]
  | cons b bs ih =>
    rw [List.mem_cons, not_or] at hd
    have hb : ¬ b = s.cfg.delim := fun h => hd.1 h.symm
    rw [List.cons_append, scanBytes]
    simp only [scanByte, hb, if_false, hl, if_true]
    rw [ih rfl (by exact hd.2)]
    simp [State.count, addCounting_addCounting, Nat.add_comm 1 bs.length, Nat.add_assoc]

/-- The opening delimiter. -/
theorem scanBytes_opening (rest : List Byte) {w : Scan} {s : State} (hl : w.limitCount = 0) :
    scanBytes (s.cfg.delim :: rest) w s = scanBytes rest { w with n := w.n + 1, limitCount := 1 } s := by
  simp [scanBytes, scanByte, hl]

/-- The closing delimiter ends the scan. -/
theorem scanBytes_closing (rest : List Byte) {w : Scan} {s : State} (hl : w.limitCount = 1) :
    scanBytes (s.cfg.delim :: rest) w s = (.frameEnd, { w with n := w.n + 1, limitCount := 2 }, s) := by
  simp [scanBytes, scanByte, hl]

/-- Content bytes are unescaped, stored and accumulated as long as they fit. -/
theorem scanBytes_content {bs : List Byte} (rest : List Byte) {w : Scan} {s : State} (hl : w.limitCount = 1)
    (hd : s.cfg.delim ∉ bs) (hm : w.dlen + (unescape s.cfg w.pend bs).1.length ≤ s.cfg.maxFrame) :
    scanBytes (bs ++ rest) w s = scanBytes rest
      { w with
        n := w.n + bs.length
        pend := (unescape s.cfg w.pend bs).2
        dlen := w.dlen + (unescape s.cfg w.pend bs).1.length
        rxCrc := crcFrom w.rxCrc (unescape s.cfg w.pend bs).1 }
      { s with stage := Memory.writeAll s.stage w.dlen (unescape s.cfg w.pend bs).1 } := by
  induction bs generalizing w s with
  | nil => obtain ⟨l, p, d, c, n⟩ := w; cases p <;> simp [unescape, crcFrom, Memory.writeAll]
  | cons b bs ih =>
    obtain ⟨l, p, d, c, n⟩ := w
    rw [List.mem_cons, not_or] at hd
    have hb : ¬ b = s.cfg.delim := fun h => hd.1 h.symm
    simp only at hl
    subst hl
    rw [List.cons_append, scanBytes]
    cases p
    · by_cases he : b = s.cfg.esc
      · simp only [unescape, he, if_true] at hm
        have he' : ¬ s.cfg.esc = s.cfg.delim := he ▸ hb
        simp only [scanByte, he', if_false, scanContent, he, if_true, unescape, one_ne_zero, Bool.false_eq_true]
        rw [ih (by rfl) hd.2 (by exact hm)]
        simp [Nat.add_comm 1 bs.length, Nat.add_assoc]
      · simp only [unescape, he, if_false, List.length_cons] at hm
        have hf : ¬ d = s.cfg.maxFrame := by omega
        simp only [scanByte, hb, if_false, scanContent, he, unescape, one_ne_zero, Bool.false_eq_true, scanStore, hf]
        rw [ih (by rfl) (by exact hd.2) (by simp only [State.stageWrite_cfg]; omega)]
        simp [State.stageWrite, crcFrom, Memory.writeAll, Nat.add_comm 1, Nat.add_assoc]
    · simp only [unescape, List.length_cons] at hm
      have hf : ¬ d = s.cfg.maxFrame := by omega
      simp only [scanByte, hb, if_false, scanContent, unescape, one_ne_zero, if_true, scanStore, hf]
      rw [ih (by rfl) (by exact hd.2) (by simp only [State.stageWrite_cfg]; omega)]
      simp [State.stageWrite, crcFrom, Memory.writeAll, Nat.add_comm 1, Nat.add_assoc]

/-- A content byte that would be stored when `M` are stored already ends the scan. -/
theorem scanBytes_tooBig {b : Byte} (rest : List Byte) {w : Scan} {s : State} (hl : w.limitCount = 1)
    (hd : b ≠ s.cfg.delim) (hm : w.dlen = s.cfg.maxFrame) (he : w.pend = true ∨ b ≠ s.cfg.esc) :
    scanBytes (b :: rest) w s = (.tooBig, { w with n := w.n + 1, pend := false }, s) := by
  obtain ⟨l, p, d, c, n⟩ := w
  simp only at hl hm he
  subst hl hm
  cases p
  · simp at he; simp [scanBytes, scanByte, scanContent, scanStore, hd, he]
  · simp [scanBytes, scanByte, scanContent, scanStore, hd]

end Sys2Proof.Machine
end

