-- ==== Sys2Proof/Laws/Commands.lean ====
section
/-! SUPPORT. What each command and each step can answer: one inversion lemma per meaning, and the encoder's shared
write path. -/

namespace Sys2Proof.Machine

variable {s t : State}

/-! ## The encoder's write path -/

/-- `EscWrite(b)` emits `esc(b)`, counts its length and accumulates the raw byte (43_encode R81). -/
theorem escWrite_eq (s : State) (b : Byte) : s.escWrite b = { s with
    txCrc := crcUpdate s.txCrc b
    txSize := addCounting s.cfg.counterMode s.txSize (escByte s.cfg b).length
    sink := s.sink ++ escByte s.cfg b } := by
  by_cases h : b = s.cfg.esc ∨ b = s.cfg.delim
  · have h' : b = s.cfg.delim ∨ b = s.cfg.esc := h.symm
    simp [State.escWrite, h, escByte, h', State.emit, State.addTxSize]
  · have h' : ¬ (b = s.cfg.delim ∨ b = s.cfg.esc) := fun x => h x.symm
    simp [State.escWrite, h, escByte, h', State.emit, State.addTxSize]

/-! ## The checks at the second delimiter -/

/-- The result of a frame's end is one of three rejections or the acceptance (42_decode R69). -/
theorem closeFrame_cases (w : Scan) (s : State) :
    (∃ c x, (x, c) ∈ [(Status.badEncoding, Counter.rxRejectedEncodingError), (.tooSmall, .rxRejectedTooSmall),
        (.badCrc8, .rxRejectedBadCrc8)] ∧ closeFrame w s = ((s.consume w.n).count c 1).fail x) ∨
      (w.pend = false ∧ 1 ≤ w.dlen ∧ w.rxCrc = 0 ∧ closeFrame w s = acceptFrame w.dlen (s.consume w.n)) := by
  unfold closeFrame
  by_cases h1 : w.pend
  · exact .inl ⟨.rxRejectedEncodingError, .badEncoding, by simp, if_pos h1⟩
  by_cases h2 : w.dlen < 1
  · exact .inl ⟨.rxRejectedTooSmall, .tooSmall, by simp, by rw [if_neg h1, if_pos h2]⟩
  by_cases h3 : w.rxCrc = 0
  · exact .inr ⟨by simpa using h1, by omega, h3, by rw [if_neg h1, if_neg h2, if_neg (not_not_intro h3)]⟩
  · exact .inl ⟨.rxRejectedBadCrc8, .badCrc8, by simp, by rw [if_neg h1, if_neg h2, if_pos h3]⟩

/-! ## The commands -/

theorem execInject_next {din : List Byte} (h : exec (.inject din) s = .next t) :
    t = (din.foldl State.ringAppend s).respond .ok 0 [] := by cases h; rfl

theorem execBeginRead_next (h : exec .beginRead s = .next t) :
    (s.rxState = .reading ∧ t = s.fail .notReady) ∨
      (s.rxState = .notReading ∧ t = finishScan s.tail s.unread (scanBytes s.unreadBytes {} s)) := by
  simp only [exec, execBeginRead, whenNotReading] at h
  split at h <;> cases h
  · exact .inr ⟨‹_›, rfl⟩
  · exact .inl ⟨‹_›, rfl⟩

theorem execRead_next {n : BitVec 16} (h : exec (.read n) s = .next t) :
    (s.rxState = .notReading ∧ t = s.fail .notReady) ∨
      (s.rxState = .reading ∧ ∃ bytes u, s.copyOut n.toNat = .ok (bytes, u) ∧
        t = u.respond .ok (word bytes.length) bytes) := by
  simp only [exec, execRead, whenReading] at h
  split at h
  · split at h <;> cases h
    exact .inr ⟨‹_›, _, _, ‹_›, rfl⟩
  · cases h; exact .inl ⟨‹_›, rfl⟩

theorem execReadExact_next {n : BitVec 16} (h : exec (.readExact n) s = .next t) :
    (s.rxState = .notReading ∧ t = s.fail .notReady) ∨
      (s.rxState = .reading ∧ ∃ bytes u, s.copyOut n.toNat = .ok (bytes, u) ∧
        t = u.respond (if bytes.length < n.toNat then .notEnough else .ok) (word bytes.length) bytes) := by
  simp only [exec, execReadExact, whenReading] at h
  split at h
  · split at h <;> cases h
    exact .inr ⟨‹_›, _, _, ‹_›, rfl⟩
  · cases h; exact .inl ⟨‹_›, rfl⟩

theorem execEndRead_next (h : exec .endRead s = .next t) :
    (s.rxState = .notReading ∧ t = s.fail .notReady) ∨
      (s.rxState = .reading ∧ ∃ rem, s.payloadLeft = some rem ∧
        t = { s.discard rem with rxState := .notReading }.respond .ok 0 []) := by
  simp only [exec, execEndRead, whenReading] at h
  split at h
  · split at h <;> cases h
    exact .inr ⟨‹_›, _, ‹_›, rfl⟩
  · cases h; exact .inl ⟨‹_›, rfl⟩

theorem execBeginWrite_next (h : exec .beginWrite s = .next t) :
    (s.txState = .writing ∧ t = s.fail .notReady) ∨
      (s.txState = .notWriting ∧
        t = { { s with txCrc := 0 }.emit s.cfg.delim with txSize := 1, txState := .writing }.respond .ok 0 []) := by
  simp only [exec, execBeginWrite, whenNotWriting] at h
  split at h <;> cases h
  · exact .inr ⟨‹_›, rfl⟩
  · exact .inl ⟨‹_›, rfl⟩

theorem execWrite_next {din : List Byte} (h : exec (.write din) s = .next t) :
    (s.txState = .notWriting ∧ t = s.fail .notReady) ∨
      (s.txState = .writing ∧
        t = ((din.foldl State.escWrite s).count .writeByteCount din.length).respond .ok 0 []) := by
  simp only [exec, execWrite, whenWriting] at h
  split at h <;> cases h
  · exact .inr ⟨‹_›, rfl⟩
  · exact .inl ⟨‹_›, rfl⟩

theorem execEndWrite_next (h : exec .endWrite s = .next t) :
    (s.txState = .notWriting ∧ t = s.fail .notReady) ∨
      (s.txState = .writing ∧ t = { s.closeWire.recordFrame with txState := .notWriting }.respond .ok 0 []) := by
  simp only [exec, execEndWrite, whenWriting] at h
  split at h <;> cases h
  · exact .inr ⟨‹_›, rfl⟩
  · exact .inl ⟨‹_›, rfl⟩

theorem execStat_next {k : Fin 16} (h : exec (.stat k) s = .next t) :
    t = s.respond .ok (s.stats.get (Counter.ofNumber k)) [] := by cases h; rfl

/-! ## The step -/

/-- A step that answers a next state was idle, answered a malformed transaction, ran a command or reset the block. -/
theorem step_next (h : step s = .next t) :
    (s.host = [] ∧ t = s) ∨
      (∃ tr rest e, s.host = .command tr :: rest ∧ decode tr = .error e ∧
        t = { s with host := rest }.fail .illegalCommand) ∨
      (∃ tr rest i, s.host = .command tr :: rest ∧ decode tr = .ok i ∧ exec i { s with host := rest } = .next t) ∨
      (∃ p rest hp, s.host = .reset p :: rest ∧
        t = { s with host := rest }.applyReset { toParams := p, valid := hp }) := by
  unfold step at h
  split at h
  · cases h; exact .inl ⟨‹_›, rfl⟩
  · rename_i e rest hh
    cases e with
    | command tr =>
      simp only [perform, performCommand] at h
      split at h
      · cases h; exact .inr (.inl ⟨tr, rest, _, hh, ‹_›, rfl⟩)
      · exact .inr (.inr (.inl ⟨tr, rest, _, hh, ‹_›, h⟩))
    | reset p =>
      simp only [perform, performReset] at h
      split at h
      · cases h; exact .inr (.inr (.inr ⟨p, rest, ‹_›, hh, rfl⟩))
      · cases h

end Sys2Proof.Machine
end

