-- ==== Sys2Proof/Laws/Encoding.lean ====
section
/-! SUPPORT. The fields of a command word that is put together from its fields (30_encoding R51). -/

namespace Sys2Proof

theorem commandWord_toNat (op : Opcode) (arg : BitVec 16) :
    (commandWord op arg).toNat = op.number.toNat * 2 ^ 28 + arg.toNat := by
  have h := arg.isLt
  have e : commandWord op arg = (op.number ++ (0 : BitVec 12)) ++ arg := rfl
  rw [e, BitVec.toNat_append, BitVec.toNat_append, ← Nat.shiftLeft_add_eq_or_of_lt h, Nat.shiftLeft_eq]
  simp [Nat.shiftLeft_eq]
  omega

theorem opField_toNat (w : Word) : (opField w).toNat = w.toNat / 2 ^ 28 := by
  have := w.isLt
  simp only [opField, BitVec.extractLsb'_toNat, Nat.shiftRight_eq_div_pow]
  omega

theorem resField_toNat (w : Word) : (resField w).toNat = w.toNat / 2 ^ 16 % 2 ^ 12 := by
  simp only [resField, BitVec.extractLsb'_toNat, Nat.shiftRight_eq_div_pow]

theorem argField_toNat (w : Word) : (argField w).toNat = w.toNat % 2 ^ 16 := by
  simp only [argField, BitVec.extractLsb'_toNat, Nat.shiftRight_eq_div_pow]
  simp

@[simp] theorem opField_commandWord (op : Opcode) (arg : BitVec 16) : opField (commandWord op arg) = op.number := by
  apply BitVec.eq_of_toNat_eq
  rw [opField_toNat, commandWord_toNat]
  have := arg.isLt
  omega

@[simp] theorem resField_commandWord (op : Opcode) (arg : BitVec 16) : resField (commandWord op arg) = 0 := by
  apply BitVec.eq_of_toNat_eq
  rw [resField_toNat, commandWord_toNat]
  have := arg.isLt
  have := op.number.isLt
  have : (0 : BitVec 12).toNat = 0 := rfl
  omega

@[simp] theorem argField_commandWord (op : Opcode) (arg : BitVec 16) : argField (commandWord op arg) = arg := by
  apply BitVec.eq_of_toNat_eq
  rw [argField_toNat, commandWord_toNat]
  have := arg.isLt
  omega

@[simp] theorem ofNumber_number (op : Opcode) : Opcode.ofNumber op.number.toNat = some op := by cases op <;> rfl

/-- An opcode number names one opcode only. -/
theorem number_of_ofNumber {n : Nat} {op : Opcode} (h : Opcode.ofNumber n = some op) : op.number.toNat = n := by
  unfold Opcode.ofNumber at h
  split at h <;> cases h <;> rfl

end Sys2Proof
end

