-- ==== Sys2Proof/Laws/PerInstr.lean ====
section
/-! SUPPORT. One family of lemmas per command: the fixed bits of its encoding are those of its opcode-table row
(30_encoding R51, R52), and the data-in bytes counted by `LEN` are there (R53). -/

namespace Sys2Proof.Laws.FixedBits

/-- The bits of the command word above `ARG`, as spec/opcode_table.json fixes them for the command's row. -/
def rowBits : Instr → Nat
  | .inject _ => 4096
  | .beginRead => 8192
  | .read _ => 12288
  | .readExact _ => 16384
  | .endRead => 20480
  | .beginWrite => 24576
  | .write _ => 28672
  | .endWrite => 32768
  | .stat _ => 36864

/-- The encoding carries its row's fixed bits, and a command with data carries the length of it in `ARG`. -/
def Statement (i : Instr) : Prop :=
  (encode i).cmd.toNat / 2 ^ 16 = rowBits i ∧
    (i.wf = true → (encode i).din ≠ [] → (encode i).cmd.toNat % 2 ^ 16 = (encode i).din.length)

theorem rowBits_eq (i : Instr) : i.opcode.number.toNat * 2 ^ 12 = rowBits i := by
  cases i <;> simp [Instr.opcode, Opcode.number, rowBits]

theorem of_data {i : Instr}
    (hl : i.wf = true → i.data ≠ [] → i.arg.toNat = i.data.length) : Statement i := by
  have ha := i.arg.isLt
  have hr := rowBits_eq i
  refine ⟨?_, fun hw hd => ?_⟩ <;> simp only [encode, commandWord_toNat]
  · omega
  · have := hl hw hd
    omega

theorem length_arg {din : List Byte} (h : decide (din.length ≤ 65535) = true) :
    (BitVec.ofNat 16 din.length).toNat = din.length := by
  have := of_decide_eq_true h
  simp only [BitVec.toNat_ofNat]
  omega

theorem inject (din : List Byte) : Statement (.inject din) := of_data fun hw _ => length_arg hw
theorem beginRead : Statement .beginRead := of_data fun _ hd => (hd rfl).elim
theorem read (maxLen : BitVec 16) : Statement (.read maxLen) := of_data fun _ hd => (hd rfl).elim
theorem readExact (len : BitVec 16) : Statement (.readExact len) := of_data fun _ hd => (hd rfl).elim
theorem endRead : Statement .endRead := of_data fun _ hd => (hd rfl).elim
theorem beginWrite : Statement .beginWrite := of_data fun _ hd => (hd rfl).elim
theorem write (din : List Byte) : Statement (.write din) := of_data fun hw _ => length_arg hw
theorem endWrite : Statement .endWrite := of_data fun _ hd => (hd rfl).elim
theorem stat (k : Fin 16) : Statement (.stat k) := of_data fun _ hd => (hd rfl).elim

end Sys2Proof.Laws.FixedBits
end

