-- ==== Sys2Proof/Tests/Slice0.lean ====
section
/-! SUPPORT. Tests of the model against the spec's own words, examples and vectors, and a witness for the hypotheses of
each statement. `TC1` is the spec's test configuration (00_scope R13): `D = 7E`, `E = 7D`, `X = 20`, `M = 8`, `C = 32`. -/

namespace Sys2Proof.Tests

open Sys2Proof.Machine

/-! ## Small states -/

/-- The block after reset with TC1. -/
def tc1 : State := State.resetWith Config.tc1

/-- TC1 with COUNTER_MODE `SATURATE`. -/
def saturating : State :=
  State.resetWith { toParams := { Config.tc1.toParams with counterMode := .saturate }, valid := by decide }

/-- TC1 with the given bytes unread, the oldest in a given cell. -/
def holding (tail : Word) (bytes : List Byte) : State := bytes.foldl State.ringAppend { tc1 with tail := tail }

/-- TC1 with the payload `68 65 6C` staged and a read session open (42_decode R76's example). -/
def reading : State :=
  { tc1 with stage := [(0, 0x68), (1, 0x65), (2, 0x6C), (3, 0x23)], stageSize := 3, rxState := .reading }

/-- TC1 with a frame open and nothing written to it. -/
def writing : State := { tc1 with txState := .writing, txSize := 1, sink := [0x7E] }

/-- The host presents this one transaction. -/
def asked (s : State) (cmd : Word) (din : List Byte) : State := { s with host := [.command ⟨cmd, din⟩] }

/-- The next state, where there is one. -/
def after (r : Result) : Option State :=
  match r with
  | .next t => some t
  | _ => none

/-- The latest response of the next state. -/
def answer (r : Result) : Option Response := (after r).bind fun t => t.responses.getLast?

/-- One piece of the next state. -/
def seen {α : Type} (f : State → α) (r : Result) : Option α := (after r).map f

/-! ## Well-formedness: the only check is the length of the data (30_encoding R53) -/

theorem test_wf_refuses_long_inject : (Instr.inject (List.replicate 65536 0)).wf = false := by
  rw [Instr.wf, List.length_replicate]; decide

theorem test_wf_refuses_long_write : (Instr.write (List.replicate 65536 0)).wf = false := by
  rw [Instr.wf, List.length_replicate]; decide

theorem test_wf_takes_the_longest : (Instr.inject (List.replicate 65535 0)).wf = true ∧
    (Instr.write (List.replicate 65535 0)).wf = true := by
  rw [Instr.wf, Instr.wf, List.length_replicate]; decide

/-! ## Decoding: words written out from `OP[31:28] RES[27:16] ARG[15:0]` (30_encoding R51, R58) -/

theorem test_decode_inject :
    decode ⟨0b0001_000000000000_0000000000000011, [0x7E, 0x00, 0x7E]⟩ = .ok (.inject [0x7E, 0x00, 0x7E]) := by decide

theorem test_decode_begin_read : decode ⟨0b0010_000000000000_0000000000000000, []⟩ = .ok .beginRead := by decide

theorem test_decode_read :
    decode ⟨0b0011_000000000000_1000000000000001, []⟩ = .ok (.read 0x8001) := by decide

theorem test_decode_read_exact :
    decode ⟨0b0100_000000000000_0000000100000010, []⟩ = .ok (.readExact 0x0102) := by decide

theorem test_decode_end_read : decode ⟨0b0101_000000000000_0000000000000000, []⟩ = .ok .endRead := by decide

theorem test_decode_begin_write : decode ⟨0b0110_000000000000_0000000000000000, []⟩ = .ok .beginWrite := by decide

theorem test_decode_write :
    decode ⟨0b0111_000000000000_0000000000000001, [0x41]⟩ = .ok (.write [0x41]) := by decide

theorem test_decode_end_write : decode ⟨0b1000_000000000000_0000000000000000, []⟩ = .ok .endWrite := by decide

theorem test_decode_stat : decode ⟨0b1001_000000000000_0000000000001100, []⟩ = .ok (.stat 12) := by decide

/-- The six cases of 30_encoding R56, with the words at the edges of each. -/
theorem test_decode_rejects_reserved_opcodes :
    ([0x00000000, 0x0FFFFFFF, 0xA0000000, 0xF000FFFF] : List Word).all
      (fun w => decode ⟨w, []⟩ == .error .reservedOpcode) = true := by decide

theorem test_decode_rejects_reserved_field :
    ([0x20010000, 0x28000000, 0x3FFF0000, 0x98000000] : List Word).all
      (fun w => decode ⟨w, []⟩ == .error .reservedField) = true := by decide

theorem test_decode_rejects_argument :
    ([0x20000001, 0x50008000, 0x60000001, 0x8000FFFF] : List Word).all
      (fun w => decode ⟨w, []⟩ == .error .argNotZero) = true := by decide

theorem test_decode_rejects_counter_number :
    decode ⟨0x90000010, []⟩ = .error .counterNumber ∧ decode ⟨0x9000FFFF, []⟩ = .error .counterNumber := by decide

theorem test_decode_rejects_data_length :
    decode ⟨0x10000002, [0x7E]⟩ = .error .dataLength ∧ decode ⟨0x70000000, [0x41]⟩ = .error .dataLength := by decide

theorem test_decode_rejects_data :
    decode ⟨0x30000001, [0x00]⟩ = .error .dataNotEmpty ∧ decode ⟨0x20000000, [0x00]⟩ = .error .dataNotEmpty ∧
      decode ⟨0x90000000, [0x00]⟩ = .error .dataNotEmpty := by decide

/-- The opcode table's own words; a word that asks for data gets data bytes of zero. -/
theorem test_table_words :
    ([0x10000002, 0x20000000, 0x30000000, 0x40000000, 0x50000000, 0x60000000, 0x70000000, 0x80000000,
      0x90000000] : List Nat).map (decodeTableWord 32) =
    [some (.inject [0, 0]), some .beginRead, some (.read 0), some (.readExact 0), some .endRead, some .beginWrite,
      some (.write []), some .endWrite, some (.stat 0)] := by decide

theorem test_table_word_with_data : decodeTableWord 48 0x0A7E10000002 = some (.inject [0x7E, 0x0A]) := by decide

/-- The first step after reset runs the word placed for it, whatever the configuration inputs are. -/
theorem test_first_step_runs_the_word : step (State.reset.withFetchWord 32 0x20000000) = exec .beginRead State.reset ∧
    step (State.reset.withFetchWord 32 0x9000000F) = exec (.stat 15) State.reset := ⟨rfl, rfl⟩

/-! ## The checksum (44_checksum R88, R90; 95_test_vectors) -/

/-- Rows 0x, 7x and Fx of the table of 44_checksum R88. -/
theorem test_crc_table :
    ((List.range 16).map fun i => crcTable (BitVec.ofNat 8 i)) =
      [0x00, 0x07, 0x0E, 0x09, 0x1C, 0x1B, 0x12, 0x15, 0x38, 0x3F, 0x36, 0x31, 0x24, 0x23, 0x2A, 0x2D] ∧
    ((List.range 16).map fun i => crcTable (BitVec.ofNat 8 (0x70 + i))) =
      [0x57, 0x50, 0x59, 0x5E, 0x4B, 0x4C, 0x45, 0x42, 0x6F, 0x68, 0x61, 0x66, 0x73, 0x74, 0x7D, 0x7A] ∧
    ((List.range 16).map fun i => crcTable (BitVec.ofNat 8 (0xF0 + i))) =
      [0xDE, 0xD9, 0xD0, 0xD7, 0xC2, 0xC5, 0xCC, 0xCB, 0xE6, 0xE1, 0xE8, 0xEF, 0xFA, 0xFD, 0xF4, 0xF3] := by
  decide +kernel

/-- Checksum values of 95_test_vectors section 2.1. -/
theorem test_crc8 : crc8 [] = 0x00 ∧ crc8 [0x00, 0x00, 0x01] = 0x07 ∧ crc8 [0xFF, 0xFF] = 0x24 ∧
    crc8 [0x31, 0x32, 0x33, 0x34, 0x35, 0x36, 0x37, 0x38, 0x39] = 0xF4 ∧ crc8 [0x68, 0x65, 0x6C, 0x23] = 0x00 ∧
    crc8 [0x68, 0x65, 0x6C, 0x22] = 0x07 := by decide +kernel

/-! ## One step of each command, with the spec's examples -/

/-- 41_ingest R60's example: from `tail = 30`, `INJECT 7E 00 7E` writes cells 30, 31 and 0. -/
theorem test_inject_wraps :
    seen (fun t => (t.tail, t.unread, t.unreadBytes, Memory.read t.ring 30, Memory.read t.ring 31, Memory.read t.ring 0))
        (step (asked { tc1 with tail := 30, ring := [(31, 0xFF)] } 0x10000003 [0x7E, 0x00, 0x7E])) =
      some (30, 3, [0x7E, 0x00, 0x7E], 0x7E, 0x00, 0x7E) := by decide

/-- Vector V12: with 30 bytes unread two of three bytes fit, and the newest is lost. -/
theorem test_inject_drops_the_newest :
    seen (fun t => (t.tail, t.unread, Memory.read t.ring 30, Memory.read t.ring 31, Memory.read t.ring 0))
        (exec (.inject [0x11, 0x22, 0x33]) { tc1 with unread := 30, ring := [(0, 0x77)] }) =
      some (0, 32, 0x11, 0x22, 0x77) := by decide

/-- 42_decode R64's example: ring `7E 01 07 7E`, here across the wrap point (vector V13). -/
theorem test_begin_read_accepts_across_the_wrap :
    let r := step (asked (holding 30 [0x7E, 0x01, 0x07, 0x7E]) 0x20000000 [])
    seen (fun t => (t.tail, t.unread, t.rxState, t.stageSize, Memory.read t.stage 0)) r = some (2, 0, .reading, 1, 0x01) ∧
      seen (fun t => (t.stats.rxFrameCount, t.stats.minRxFrameSize, t.stats.maxRxFrameSize)) r = some (1, 1, 1) ∧
      answer r = some ⟨.ok, 1, []⟩ := by decide +kernel

/-- Vectors V1, V2, V3, V16 and V5: each rejection with what it consumes. -/
theorem test_begin_read_rejections :
    ([[0x7E, 0x7E], [0x7E, 0x7D, 0x7E], [0x41, 0x42, 0x43], [0x7E, 0x01, 0x00, 0x7E],
      [0x7E, 0x01, 0x02, 0x03, 0x04, 0x05, 0x06, 0x07, 0x08, 0x09, 0x85, 0x7E]] : List (List Byte)).map
        (fun bytes => seen (fun t => (t.responses.map (·.status), t.tail)) (exec .beginRead (holding 0 bytes))) =
      [some ([.tooSmall], 2), some ([.badEncoding], 3), some ([.noFrame], 0), some ([.badCrc8], 4),
        some ([.tooBig], 10)] := by decide +kernel

/-- 42_decode R76's example: `READ 2`, then a short `READ 5`. -/
theorem test_read_copies :
    seen (fun t => (t.responses, t.cursor, t.stats.readByteCount, t.stats.readOverreach, t.rxState))
        (step (asked reading 0x30000002 [])) = some ([⟨.ok, 2, [0x68, 0x65]⟩], 2, 2, 0, .reading) := by decide

theorem test_read_short :
    seen (fun t => (t.responses, t.cursor, t.stats.readByteCount, t.stats.readOverreach))
        (exec (.read 5) { reading with cursor := 2 }) = some ([⟨.ok, 1, [0x6C]⟩], 3, 1, 1) := by decide

/-- 42_decode R77: `NotEnough` still hands out what was left. -/
theorem test_read_exact_not_enough :
    seen (fun t => (t.responses, t.cursor, t.stats.readByteCount, t.stats.readOverreach))
        (exec (.readExact 5) { reading with cursor := 2 }) = some ([⟨.notEnough, 1, [0x6C]⟩], 3, 1, 1) := by decide

theorem test_read_exact_nothing :
    seen (fun t => (t.responses, t.stats.readOverreach)) (exec (.readExact 0) { reading with cursor := 3 }) =
      some ([⟨.ok, 0, []⟩], 0) := by decide

/-- 42_decode R78: the bytes left are discarded and counted as read too. -/
theorem test_end_read_discards :
    seen (fun t => (t.responses, t.rxState, t.stats.readDiscardFrameCount, t.stats.readDiscardByteCount,
          t.stats.readByteCount)) (exec .endRead { reading with cursor := 1 }) =
      some ([⟨.ok, 0, []⟩], .notReading, 1, 2, 2) := by decide

theorem test_end_read_of_a_read_frame :
    seen (fun t => (t.rxState, t.stats.readDiscardFrameCount)) (exec .endRead { reading with cursor := 3 }) =
      some (.notReading, 0) := by decide

/-- 43_encode R82's example. -/
theorem test_begin_write :
    seen (fun t => (t.sink, t.txSize, t.txCrc, t.txState, t.responses))
        (step (asked { tc1 with txCrc := 0x55, txSize := 9 } 0x60000000 [])) =
      some ([0x7E], 1, 0, .writing, [⟨.ok, 0, []⟩]) := by decide

/-- 43_encode R83's example: `WRITE 41 7E 7D` emits `41 7D 5E 7D 5D`. -/
theorem test_write_escapes :
    seen (fun t => (t.sink, t.txSize, t.stats.writeByteCount)) (exec (.write [0x41, 0x7E, 0x7D]) writing) =
      some ([0x7E, 0x41, 0x7D, 0x5E, 0x7D, 0x5D], 6, 3) := by decide

/-- 43_encode R84's example: the check byte `T[12] = 7E` is escaped and the on-wire size is 5. -/
theorem test_end_write_escapes_the_check_byte :
    seen (fun t => (t.sink, t.txState, t.stats.writeFrameMinSize, t.stats.writeFrameMaxSize, t.stats.writeFrameCount,
          t.stats.writeByteCount)) (exec .endWrite { writing with txCrc := 0x7E, txSize := 2, sink := [0x7E, 0x12] }) =
      some ([0x7E, 0x12, 0x7D, 0x5E, 0x7E], .notWriting, 5, 5, 1, 1) := by decide

theorem test_end_write_of_an_empty_frame :
    seen (fun t => (t.sink, t.stats.writeFrameMinSize)) (exec .endWrite writing) = some ([0x7E, 0x00, 0x7E], 3) := by
  decide

/-- 45_statistics R100's example and the last counter. -/
theorem test_stat :
    answer (step (asked tc1 0x90000006 [])) = some ⟨.ok, 0xFFFFFFFF, []⟩ ∧
      answer (exec (.stat 15) { tc1 with stats := { Stats.reset with writeByteCount := 7 } }) = some ⟨.ok, 7, []⟩ := by
  decide

/-- 45_statistics R96 at the largest value, under both modes. -/
theorem test_counter_mode : addCounting .wrap 0xFFFFFFFF 2 = 1 ∧ addCounting .saturate 0xFFFFFFFF 2 = 0xFFFFFFFF := by
  decide

/-- A malformed transaction answers before the session is looked at (60_exceptions R104). -/
theorem test_malformed : answer (step (asked tc1 0x70000002 [0x41])) = some ⟨.illegalCommand, 0, []⟩ := by decide

/-- 70_reset R117, R118: reset in the middle of a frame. -/
theorem test_reset_request :
    seen (fun t => (t.txState, t.txSize, t.sink, t.responses, t.cfg.maxFrame))
        (step { writing with host := [.reset { maxFrame := 2 }] }) = some (.notWriting, 0, [0x7E], [], 2) := by decide

/-! ## Witnesses: states and operands that meet the hypotheses of each statement, at the edges of its clauses -/

/-- A full ring: an opening delimiter and 31 escape bytes, which decode to 15 bytes. -/
def fullRing : State := holding 5 (0x7E :: List.replicate 31 0x7D)

/-- A full ring of stray bytes. -/
def strayRing : State := holding 31 (List.replicate 32 0x41)

/-- The largest frame TC1 can stage, fully read. -/
def longestRead : State := { reading with stageSize := 7, cursor := 7 }

theorem test_legal_tc1 : tc1.Inv := by constructor <;> decide

theorem test_legal_saturating : saturating.Inv := by constructor <;> decide

theorem test_legal_reading : reading.Inv := by constructor <;> decide

theorem test_legal_longest : longestRead.Inv := by constructor <;> decide

theorem test_legal_writing : writing.Inv := by constructor <;> decide

theorem test_legal_full : fullRing.Inv ∧ fullRing.unread.toNat = fullRing.cfg.ringCap := by
  refine ⟨?_, by decide +kernel⟩
  constructor <;> decide +kernel

theorem test_legal_stray : strayRing.Inv ∧ strayRing.unread.toNat = strayRing.cfg.ringCap := by
  refine ⟨?_, by decide +kernel⟩
  constructor <;> decide +kernel

/-- A frame after two stray bytes, across the wrap point, with one more byte behind it. -/
def strayAndFrame (body : List Byte) : State := holding 29 ([0x41, 0x42, 0x7E] ++ body ++ [0x7E, 0x55])

/-- EncodedCommandDecodesBack, DecodedTransactionIsItsCommandsEncoding: the longest data, and none. -/
theorem test_hyp_encoding : (Instr.write (List.replicate 65535 0x7E)).wf = true ∧ (Instr.inject []).wf = true ∧
    decode ⟨0x10000000, []⟩ = .ok (.inject []) ∧ decode ⟨0x4000FFFF, []⟩ = .ok (.readExact 0xFFFF) := by
  refine ⟨?_, rfl, by decide, by decide⟩
  rw [Instr.wf, List.length_replicate]; decide

/-- MalformedTransactionsOnlyAnswerIllegalCommand: a transaction for each of the six cases, and well-formed ones just
inside them. -/
theorem test_hyp_malformed :
    (asked tc1 0x0FFFFFFF []).host = [.command ⟨0x0FFFFFFF, []⟩] ∧
    (∀ t ∈ ([⟨0x00000000, []⟩, ⟨0xA0000000, []⟩, ⟨0x28000000, []⟩, ⟨0x20000001, []⟩, ⟨0x50000001, []⟩,
      ⟨0x60008000, []⟩, ⟨0x80000001, []⟩, ⟨0x90000010, []⟩, ⟨0x10000002, [0x7E]⟩, ⟨0x70000000, [0x7E]⟩,
      ⟨0x30000001, [0]⟩, ⟨0x90000000, [0]⟩] : List Transaction), MalformedTransaction t) ∧
    (∀ t ∈ ([⟨0x10000001, [0x7E]⟩, ⟨0x20000000, []⟩, ⟨0x3000FFFF, []⟩, ⟨0x40000000, []⟩, ⟨0x70000000, []⟩,
      ⟨0x9000000F, []⟩] : List Transaction), ¬ MalformedTransaction t) := by
  refine ⟨rfl, ?_, ?_⟩ <;> (unfold MalformedTransaction; decide)

/-- StepRunsTheDecodedCommand: a command presented, and nothing presented. -/
theorem test_hyp_step : (asked reading 0x30000002 []).host = [.command ⟨0x30000002, []⟩] ∧
    decode ⟨0x30000002, []⟩ = .ok (.read 2) ∧ tc1.host = [] := by decide

/-- ResetRequestConstructsTheBlock: the smallest valid configuration, and one at the largest capacity. -/
theorem test_hyp_reset : ({ writing with host := [.reset { maxFrame := 1, ringFrames := 1 }] } : State).host =
      [.reset { maxFrame := 1, ringFrames := 1 }] ∧
    Params.Valid { maxFrame := 1, ringFrames := 1 } ∧
    Params.Valid { maxFrame := 4294967295, ringFrames := 1, counterMode := .saturate } := by decide

/-- InvalidConfigurationIsRejected: a configuration failing each constraint of 00_scope R9 alone. -/
theorem test_hyp_invalid :
    ({ tc1 with host := [.reset { escXor := 0 }] } : State).host = [.reset { escXor := 0 }] ∧
    ([{ escXor := 0 }, { escXor := 0x03 }, { delim := 0x7D }, { maxFrame := 0 }, { ringFrames := 0 },
      { maxFrame := 65536, ringFrames := 65536 }] : List Params).Forall fun p => ¬ p.Valid := by
  simp only [List.Forall]; decide

/-- StepKeepsLegalStates, LegalStatesNeverFault: a legal state with a command, and with a valid reset, presented. -/
theorem test_hyp_legal_step : (asked reading 0x30000002 []).Inv ∧
    (after (step (asked reading 0x30000002 []))).isSome = true ∧ (asked reading 0x30000002 []).ResetValid ∧
    ({ reading with host := [.reset { maxFrame := 1 }] } : State).Inv ∧
    ({ reading with host := [.reset { maxFrame := 1 }] } : State).ResetValid := by
  refine ⟨by constructor <;> decide, by decide, ?_, by constructor <;> decide, ?_⟩
  · intro p rest h; cases h
  · intro p rest h; cases h; decide

/-- ReadCommandsStopInIllegalStates: the cursor one past the payload, and a payload one past the staging buffer. -/
theorem test_hyp_illegal :
    let s := { reading with cursor := 4 }
    let u := { reading with stageSize := 9, cursor := 8 }
    (s.rxState = .reading ∧ s.stageSize.toNat < s.cursor.toNat) ∧
    (u.rxState = .reading ∧ u.cursor.toNat ≤ u.stageSize.toNat ∧
      0 < min (1 : BitVec 16).toNat (u.stageSize.toNat - u.cursor.toNat) ∧
      u.cfg.maxFrame < u.cursor.toNat + min (1 : BitVec 16).toNat (u.stageSize.toNat - u.cursor.toNat)) := by decide

/-- WrongSessionOnlyAnswersNotReady and the preconditions of the command statements: both states of both sessions. -/
theorem test_hyp_sessions : reading.rxState = .reading ∧ reading.txState = .notWriting ∧
    writing.txState = .writing ∧ writing.rxState = .notReading := by decide

/-- SessionsChangeOnlyByTheirCommands: each session opened and closed once. -/
theorem test_hyp_session_changes :
    (holding 0 [0x7E, 0x00, 0x7E]).rxState = .notReading ∧
    seen (·.rxState) (exec .beginRead (holding 0 [0x7E, 0x00, 0x7E])) = some .reading ∧
    reading.rxState = .reading ∧ seen (·.rxState) (exec .endRead reading) = some .notReading ∧
    tc1.txState = .notWriting ∧ seen (·.txState) (exec .beginWrite tc1) = some .writing ∧
    writing.txState = .writing ∧ seen (·.txState) (exec .endWrite writing) = some .notWriting := by decide

/-- EachRegisterHasOnlyItsWriters: one command that none of the clauses excludes. -/
theorem test_hyp_writers : (after (exec (.stat 0) reading)).isSome = true ∧ (∀ d, Instr.stat 0 ≠ .inject d) ∧
    Instr.stat 0 ≠ .beginRead ∧ (∀ n, Instr.stat 0 ≠ .read n) ∧ (∀ n, Instr.stat 0 ≠ .readExact n) ∧
    Instr.stat 0 ≠ .endRead ∧ Instr.stat 0 ≠ .beginWrite ∧ (∀ d, Instr.stat 0 ≠ .write d) ∧
    Instr.stat 0 ≠ .endWrite := by
  refine ⟨by decide, ?_, by decide, ?_, ?_, by decide, by decide, ?_, by decide⟩ <;> intro _ h <;> cases h

/-- InjectAppendsWhatFitsAndDropsTheRest, InjectExtendsTheUnreadBytes: room for one byte, and none. -/
theorem test_hyp_inject : (holding 31 (List.replicate 31 0x41)).ring.wf = true ∧
    (holding 31 (List.replicate 31 0x41)).unread.toNat + 1 = Config.tc1.ringCap ∧
    strayRing.ring.wf = true ∧ ([0x7E] : List Byte).length ≤ 65535 := by decide +kernel

/-- BeginReadAcceptsAValidFrame: an escaped check byte and an empty payload, and the longest payload (vector V19). -/
theorem test_hyp_accept :
    let accepts := fun (s : State) (strays body rest payload : List Byte) => s.rxState = .notReading ∧
      s.unreadBytes = strays ++ s.cfg.delim :: (body ++ s.cfg.delim :: rest) ∧
      s.cfg.delim ∉ strays ∧ s.cfg.delim ∉ body ∧
      unescape s.cfg false body = (payload ++ [crc8 payload], false) ∧ payload.length < s.cfg.maxFrame
    accepts (strayAndFrame [0x12, 0x7D, 0x5E]) [0x41, 0x42] [0x12, 0x7D, 0x5E] [0x55] [0x12] ∧
    accepts (strayAndFrame [0x00]) [0x41, 0x42] [0x00] [0x55] [] ∧
    accepts (holding 0 [0x7E, 0x01, 0x02, 0x03, 0x04, 0x05, 0x06, 0x07, 0xD8, 0x7E]) []
      [0x01, 0x02, 0x03, 0x04, 0x05, 0x06, 0x07, 0xD8] [] [0x01, 0x02, 0x03, 0x04, 0x05, 0x06, 0x07] := by
  decide +kernel

theorem test_hyp_accept_legal : (strayAndFrame [0x12, 0x7D, 0x5E]).Inv := by constructor <;> decide +kernel

/-- SecondDelimiterChecksRunInOrder: each of the four outcomes; the first with nothing decoded, so that the order of the
checks shows, and with as many bytes as fit. -/
theorem test_hyp_second_delimiter :
    let closes := fun (body decoded : List Byte) (pend : Bool) =>
      let s := strayAndFrame body
      s.rxState = .notReading ∧ s.unreadBytes = [0x41, 0x42] ++ s.cfg.delim :: (body ++ s.cfg.delim :: [0x55]) ∧
      s.cfg.delim ∉ ([0x41, 0x42] : List Byte) ∧ s.cfg.delim ∉ body ∧
      unescape s.cfg false body = (decoded, pend) ∧ decoded.length ≤ s.cfg.maxFrame
    closes [0x7D] [] true ∧ closes [1, 2, 3, 4, 5, 6, 7, 8, 0x7D] [1, 2, 3, 4, 5, 6, 7, 8] true ∧
    closes [] [] false ∧ (closes [0x01, 0x00] [0x01, 0x00] false ∧ crc8 [0x01, 0x00] ≠ 0) ∧
    (closes [0x01, 0x07] [0x01, 0x07] false ∧ crc8 [0x01, 0x07] = 0) := by decide +kernel

theorem test_hyp_second_delimiter_legal : (strayAndFrame [0x7D]).Inv ∧ (strayAndFrame []).Inv ∧
    (strayAndFrame [0x01, 0x00]).Inv := by
  refine ⟨?_, ?_, ?_⟩ <;> (constructor <;> decide +kernel)

/-- TooBigOnTheByteAfterTheLastThatFits: a raw ninth byte, and an escaped ninth byte that equals the escape byte. -/
theorem test_hyp_too_big :
    let tooBig := fun (body : List Byte) (b : Byte) (pend : Bool) =>
      let s := holding 20 ([0x41, 0x7E] ++ body ++ [b, 0x85, 0x7E])
      s.rxState = .notReading ∧ s.unreadBytes = [0x41] ++ s.cfg.delim :: (body ++ b :: [0x85, 0x7E]) ∧
      s.cfg.delim ∉ ([0x41] : List Byte) ∧ s.cfg.delim ∉ body ∧ b ≠ s.cfg.delim ∧
      unescape s.cfg false body = ([1, 2, 3, 4, 5, 6, 7, 8], pend) ∧ s.cfg.maxFrame = 8 ∧
      (pend = true ∨ b ≠ s.cfg.esc)
    tooBig [1, 2, 3, 4, 5, 6, 7, 8] 9 false ∧ tooBig [1, 2, 3, 4, 5, 6, 7, 8, 0x7D] 0x7D true := by decide +kernel

theorem test_hyp_too_big_legal :
    (holding 20 ([0x41, 0x7E] ++ [1, 2, 3, 4, 5, 6, 7, 8] ++ [9, 0x85, 0x7E])).Inv := by constructor <;> decide +kernel

/-- NoFrameRollsBackExactly, PollingCountsTheStrayBytesAgain: nothing unread, stray bytes only, and an open frame with
as many decoded bytes as fit. -/
theorem test_hyp_no_frame :
    let open8 := holding 30 [0x41, 0x7E, 1, 2, 3, 4, 5, 6, 7, 8, 0x7D]
    ((tc1.rxState = .notReading ∧ NoCompleteFrame tc1) ∧ strayCount tc1 = 0) ∧
    ((strayRing.rxState = .notReading ∧ NoCompleteFrame strayRing) ∧ strayCount strayRing = 32) ∧
    ((open8.rxState = .notReading ∧ NoCompleteFrame open8) ∧ strayCount open8 = 1) := by
  simp only [NoCompleteFrame]; decide +kernel

theorem test_hyp_no_frame_legal : (holding 30 [0x41, 0x7E, 1, 2, 3, 4, 5, 6, 7, 8, 0x7D]).Inv := by
  constructor <;> decide +kernel

/-- FullRingWithoutFrameIsWedged: a full ring of stray bytes answers `NoFrame`, and commands run after it. -/
theorem test_hyp_wedge : strayRing.unread.toNat = strayRing.cfg.ringCap ∧
    seen (·.responses) (exec .beginRead strayRing) = some (strayRing.responses ++ [⟨.noFrame, 0, []⟩]) ∧
    (after (execAll [.beginRead, .inject [0x7E], .beginRead] strayRing)).isSome = true := by decide +kernel

/-- ReadCopiesStagedPayload, ReadExactCopiesOrAnswersNotEnough, EndReadDiscardsAndCloses: bytes left, and the longest
payload with none left. -/
theorem test_hyp_read : (reading.rxState = .reading ∧ reading.cursor.toNat ≤ reading.stageSize.toNat ∧
      reading.stageSize.toNat < reading.cfg.maxFrame) ∧
    (longestRead.rxState = .reading ∧ longestRead.cursor.toNat ≤ longestRead.stageSize.toNat ∧
      longestRead.stageSize.toNat + 1 = longestRead.cfg.maxFrame) := by decide

/-- ClosedFrameCountsItsPayloadOnce: an accepted frame, and commands of both sides between its opening and its end. -/
theorem test_hyp_closed_frame :
    (holding 30 [0x7E, 0x01, 0x07, 0x7E]).rxState = .notReading ∧
    seen (·.rxState) (exec .beginRead (holding 30 [0x7E, 0x01, 0x07, 0x7E])) = some .reading ∧
    ∀ i ∈ [Instr.inject [0x7E], .read 1, .beginWrite, .beginRead, .readExact 1], i ≠ .endRead := by decide +kernel

theorem test_hyp_closed_frame_legal : (holding 30 [0x7E, 0x01, 0x07, 0x7E]).Inv := by constructor <;> decide +kernel

/-- EncoderEmitsExactlyTheWireFrame: two parts, one of them a delimiter, and no part. -/
theorem test_hyp_encoder : tc1.txState = .notWriting ∧
    (wireFrame tc1.cfg ([[0x01], [0x7E]] : List (List Byte)).flatten).length = 6 ∧
    (wireFrame tc1.cfg ([] : List (List Byte)).flatten).length = 3 := by decide +kernel

/-- EscapedByteIsNeitherDelimiterNorEscape: both bytes that are escaped. -/
theorem test_hyp_escaped : (0x7E : Byte) = Config.tc1.delim ∧ (0x7D : Byte) = Config.tc1.esc := by decide

/-- EncodedFramesRoundTrip: the longest payload, every byte of it escaped, into an empty ring near its end. -/
theorem test_hyp_round_trip :
    let rx := { tc1 with tail := 31 }
    let p : List Byte := List.replicate 7 0x7D
    tc1.txState = .notWriting ∧ rx.rxState = .notReading ∧ rx.unread = 0 ∧ rx.cfg = tc1.cfg ∧
      p.length < rx.cfg.maxFrame ∧ p.length ≤ 65535 ∧ (wireFrame rx.cfg p).length ≤ rx.cfg.ringCap := by
  decide +kernel

theorem test_hyp_round_trip_legal : ({ tc1 with tail := 31 } : State).Inv := by constructor <;> decide

/-- ChecksumIsZeroExactlyForTheCheckByte: both directions. -/
theorem test_hyp_checksum : crc8 ([0x12] ++ [0x7E]) = 0 ∧ crc8 [0x12] = 0x7E ∧ crc8 ([0x12] ++ [0x7F]) ≠ 0 := by
  decide +kernel

/-- CountersWrapOrSaturate: two counters, and each COUNTER_MODE. -/
theorem test_hyp_counters : Counter.rxFrameCount ≠ .readByteCount ∧ tc1.cfg.counterMode = .wrap ∧
    saturating.cfg.counterMode = .saturate := by decide

/-- CountersAreMonotone: a command while counters saturate, and a counter that is no minimum. -/
theorem test_hyp_monotone : (after (exec .beginRead saturating)).isSome = true ∧
    saturating.cfg.counterMode = .saturate ∧ Counter.rxFalseStarts ≠ .minRxFrameSize ∧
    Counter.rxFalseStarts ≠ .writeFrameMinSize := by decide

/-- StepKeepsSizesOrdered: before the first frame, and after one whose size is the sentinel's. -/
theorem test_hyp_sizes : Stats.SizesOrdered tc1.stats ∧
    Stats.SizesOrdered { Stats.reset with minRxFrameSize := 0, writeFrameMaxSize := 0xFFFFFFFF } ∧
    (after (step (asked tc1 0x60000000 []))).isSome = true := by
  simp only [Stats.SizesOrdered]; decide

/-- ReceiveAndTransmitSidesAreIndependent: states that agree on one side only, and a command of that side. -/
theorem test_hyp_sides :
    isReceiveCommand (.read 1) = true ∧ (after (exec (.read 1) reading)).isSome = true ∧
    reading.SameReceive { reading with txState := .writing, txCrc := 7, sink := [0x7E] } ∧
    isTransmitCommand (.write [0x7D]) = true ∧ (after (exec (.write [0x7D]) writing)).isSome = true ∧
    writing.SameTransmit { reading with txState := .writing, txSize := 1 } := by
  refine ⟨by decide, by decide, ?_, by decide, by decide, ?_⟩
  · exact ⟨rfl, rfl, rfl, rfl, rfl, rfl, rfl, rfl, fun _ _ => rfl⟩
  · exact ⟨rfl, rfl, rfl, rfl, fun _ _ => rfl⟩

/-- Two legal states that differ in everything the host cannot see. -/
theorem test_hyp_alike :
    let s := asked (holding 0 [0x7E, 0x01, 0x07, 0x7E]) 0x20000000 []
    let u := { asked (holding 30 [0x7E, 0x01, 0x07, 0x7E]) 0x20000000 [] with
      stage := [(2, 9)], stageSize := 5, cursor := 1, txCrc := 3, txSize := 4 }
    s ≠ u ∧ s.Inv ∧ u.Inv ∧ s.Alike u ∧ (after (step s)).isSome = true := by
  refine ⟨by decide +kernel, by constructor <;> decide +kernel, by constructor <;> decide +kernel, ?_,
    by decide +kernel⟩
  constructor <;> decide +kernel

/-- Two legal states in open sessions that differ in the staged bytes past the payload. -/
theorem test_hyp_alike_in_sessions :
    let s := asked { reading with txState := .writing } 0x30000003 []
    let u := { s with stage := [(0, 0x68), (1, 0x65), (2, 0x6C), (7, 1)] }
    s ≠ u ∧ s.Inv ∧ u.Inv ∧ s.Alike u ∧ (after (step s)).isSome = true := by
  refine ⟨by decide, by constructor <;> decide, by constructor <;> decide, ?_, by decide⟩
  constructor <;> decide +kernel

end Sys2Proof.Tests
end

section
/-! PROOFS. What a step does with the next item of the host's stream (00_scope R6, R9), and the bytes an escape
sequence may end in (R10). -/

namespace Sys2Proof.Machine

/-! ## The step -/

theorem step_of_host_nil {s : State} (h : s.host = []) : step s = .next s := by
  simp only [step, h]

theorem step_of_host_cons {s : State} {e : HostEvent} {rest : List HostEvent} (h : s.host = e :: rest) :
    step s = perform e { s with host := rest } := by
  simp only [step, h]

theorem performCommand_of_decode_ok {t : Transaction} {i : Instr} (h : decode t = .ok i) (s : State) :
    performCommand t s = exec i s := by
  simp only [performCommand, h]

theorem performReset_of_not_valid {p : Params} (h : ¬ p.Valid) (s : State) :
    performReset p s = .refused .invalidConfiguration :=
  dif_neg h

/-- Settles O6: a nonempty stream goes to `perform`, and a decoded transaction to `exec`. -/
theorem stepRunsTheDecodedCommand : Obligations.StepRunsTheDecodedCommand := by
  refine ⟨fun s t rest i hhost hdecode => ?_, fun _ => step_of_host_nil⟩
  calc step s = performCommand t { s with host := rest } := step_of_host_cons hhost
    _ = exec i { s with host := rest } := performCommand_of_decode_ok hdecode _

/-- Settles O9: the presented reset goes to `performReset`, whose validity check fails. -/
theorem invalidConfigurationIsRejected : Obligations.InvalidConfigurationIsRejected := by
  intro s p rest hhost hinvalid
  calc step s = performReset p { s with host := rest } := step_of_host_cons hhost
    _ = .refused .invalidConfiguration := performReset_of_not_valid hinvalid _

/-! ## Escaped bytes -/

/-- The escape constant changes every byte, since it is not 0 (00_scope R9). -/
theorem xor_escXor_ne_self (cfg : Config) (b : Byte) : b ^^^ cfg.escXor ≠ b := by
  obtain ⟨hX, -⟩ := cfg.valid
  intro h
  exact hX (BitVec.xor_right_inj b |>.mp (h.trans BitVec.xor_zero.symm))

theorem esc_xor_escXor_ne_delim (cfg : Config) : cfg.esc ^^^ cfg.escXor ≠ cfg.delim := by
  obtain ⟨-, hED, -⟩ := cfg.valid
  exact hED

/-- `D XOR X = E` would give `E XOR X = D`, as XOR with `X` undoes itself. -/
theorem delim_xor_escXor_ne_esc (cfg : Config) : cfg.delim ^^^ cfg.escXor ≠ cfg.esc := by
  intro h
  apply esc_xor_escXor_ne_delim cfg
  rw [← h, BitVec.xor_assoc, BitVec.xor_self, BitVec.xor_zero]

/-- Settles O36, one case for the delimiter and one for the escape byte. -/
theorem escapedByteIsNeitherDelimiterNorEscape : Obligations.EscapedByteIsNeitherDelimiterNorEscape := by
  rintro cfg b (rfl | rfl)
  · exact ⟨xor_escXor_ne_self cfg cfg.delim, delim_xor_escXor_ne_esc cfg⟩
  · exact ⟨esc_xor_escXor_ne_delim cfg, xor_escXor_ne_self cfg cfg.esc⟩

end Sys2Proof.Machine
end

section
/-! PROOFS. The legal states (10_state R16, R17, R20, R21; 20_memory R32 to R34): the state after reset is one, and
every step leads from one to one. What `BEGIN_READ` decides is named here as a verdict. -/

namespace Sys2Proof.Machine

variable {s t : State}

/-! ## What BEGIN_READ decides -/

/-- The verdict of a scan over the unread bytes (42_decode R64): a frame rejected after `n` bytes, a frame of `dlen`
decoded bytes accepted after `n` bytes, or no complete frame. -/
inductive ScanVerdict where
  | rejected (n : Nat) (c : Counter) (x : Status)
  | accepted (n dlen : Nat)
  | noFrame

/-- What the verdict does to the state the scan left. -/
def ScanVerdict.apply : ScanVerdict → State → State
  | .rejected n c x, s => ((s.consume n).count c 1).fail x
  | .accepted n dlen, s => acceptFrame dlen (s.consume n)
  | .noFrame, s => s.fail .noFrame

/-- The counters of rejected frames, with their statuses (42_decode R69, R71). -/
def rejections : List (Status × Counter) :=
  [(.badEncoding, .rxRejectedEncodingError), (.tooSmall, .rxRejectedTooSmall), (.badCrc8, .rxRejectedBadCrc8),
    (.tooBig, .rxRejectedTooBig)]

/-- The verdict is one over `u` unread bytes of which `d` decoded bytes were staged. -/
def ScanVerdict.Fits (u d : Nat) : ScanVerdict → Prop
  | .rejected n c x => n ≤ u ∧ (x, c) ∈ rejections
  | .accepted n dlen => n ≤ u ∧ 1 ≤ dlen ∧ dlen = d
  | .noFrame => True

/-- Each result of the checks at the second delimiter is a verdict, the same for every state. -/
theorem closeFrame_verdict (w : Scan) {u : Nat} (hn : w.n ≤ u) :
    ∃ r : ScanVerdict, r.Fits u w.dlen ∧ ∀ s, closeFrame w s = r.apply s := by
  by_cases h1 : w.pend
  · exact ⟨.rejected w.n .rxRejectedEncodingError .badEncoding, ⟨hn, by decide⟩, fun s => if_pos h1⟩
  by_cases h2 : w.dlen < 1
  · exact ⟨.rejected w.n .rxRejectedTooSmall .tooSmall, ⟨hn, by decide⟩, fun s => by
      rw [closeFrame, if_neg h1, if_pos h2]; rfl⟩
  by_cases h3 : w.rxCrc = 0
  · exact ⟨.accepted w.n w.dlen, ⟨hn, by omega, rfl⟩, fun s => by
      rw [closeFrame, if_neg h1, if_neg h2, if_neg (not_not_intro h3)]; rfl⟩
  · exact ⟨.rejected w.n .rxRejectedBadCrc8 .badCrc8, ⟨hn, by decide⟩, fun s => by
      rw [closeFrame, if_neg h1, if_neg h2, if_pos h3]; rfl⟩

/-- `BEGIN_READ` outside a session counts `k` stray bytes, stages `v` and applies a verdict; all three depend on the
configuration and the unread bytes only. -/
theorem execBeginRead_verdict (cfg : Config) (bytes : List Byte) :
    ∃ k v, ∃ r : ScanVerdict, v.length ≤ cfg.maxFrame ∧ r.Fits bytes.length v.length ∧
      ∀ s : State, s.cfg = cfg → s.unreadBytes = bytes → s.rxState = .notReading →
        exec .beginRead s = .next (r.apply (s.scanned k 0 v)) := by
  obtain ⟨e, w, k, v, hdlen, hn, hfits, hscan⟩ := scanBytes_cases cfg bytes {}
  simp only [Nat.zero_add, Nat.zero_le, forall_const] at hdlen hn hfits
  have hexec : ∀ s : State, s.cfg = cfg → s.unreadBytes = bytes → s.rxState = .notReading →
      exec .beginRead s = .next (finishScan s.tail s.unread (e, w, s.scanned k 0 v)) := by
    intro s hcfg hbytes hrx
    rw [exec, execBeginRead, whenNotReading_pass _ hrx, hbytes, hscan s hcfg]
  refine ⟨k, v, ?_⟩
  cases e with
  | frameEnd =>
    obtain ⟨r, hr, hclose⟩ := closeFrame_verdict w hn
    exact ⟨r, hdlen ▸ hfits, hdlen ▸ hr, fun s hcfg hbytes hrx => by
      rw [hexec s hcfg hbytes hrx, finishScan, hclose]⟩
  | tooBig => exact ⟨.rejected w.n .rxRejectedTooBig .tooBig, hdlen ▸ hfits, ⟨hn, by decide⟩, hexec⟩
  | exhausted => exact ⟨.noFrame, hdlen ▸ hfits, trivial, hexec⟩

/-- The answers of `BEGIN_READ`: `NotReady` in a session, else a scan and its verdict. -/
theorem execBeginRead_cases (h : exec .beginRead s = .next t) :
    (s.rxState = .reading ∧ t = s.fail .notReady) ∨
      (s.rxState = .notReading ∧ ∃ k v, ∃ r : ScanVerdict, v.length ≤ s.cfg.maxFrame ∧
        r.Fits s.unread.toNat v.length ∧ t = r.apply (s.scanned k 0 v)) := by
  rcases execBeginRead_next h with hstop | ⟨hrx, -⟩
  · exact .inl hstop
  · obtain ⟨k, v, r, hv, hr, hexec⟩ := execBeginRead_verdict s.cfg s.unreadBytes
    rw [hexec s rfl rfl hrx] at h
    cases h
    exact .inr ⟨hrx, k, v, r, hv, by simpa using hr, rfl⟩

/-! ## The write path over a byte sequence -/

/-- A byte sequence through the escaping path (43_encode R81, R83). -/
theorem foldl_escWrite_eq (din : List Byte) (s : State) : din.foldl State.escWrite s = { s with
    txCrc := crcFrom s.txCrc din
    txSize := addCounting s.cfg.counterMode s.txSize (escBytes s.cfg din).length
    sink := s.sink ++ escBytes s.cfg din } := by
  induction din generalizing s with
  | nil => simp [crcFrom, escBytes]
  | cons b bs ih => simp [ih, escWrite_eq, crcFrom, escBytes, addCounting_addCounting]

/-- What `END_WRITE` emits and accumulates before its frame statistics (43_encode R84). -/
theorem closeWire_eq (s : State) : s.closeWire = { s with
    txCrc := crcUpdate s.txCrc s.txCrc
    txSize := addCounting s.cfg.counterMode s.txSize ((escByte s.cfg s.txCrc).length + 1)
    sink := s.sink ++ escByte s.cfg s.txCrc ++ [s.cfg.delim]
    stats := s.stats.set .writeByteCount (addCounting s.cfg.counterMode s.stats.writeByteCount 1) } := by
  simp [State.closeWire, escWrite_eq, State.count, State.emit, State.addTxSize, addCounting_addCounting, Stats.get]

/-! ## What keeps a state legal -/

namespace State.Inv

/-- Legality speaks of the configuration, the memories and the receive registers only. -/
theorem of_frame (h : s.Inv) (ht : t = { s with
    rxState := t.rxState, txState := t.txState, txCrc := t.txCrc, txSize := t.txSize, stats := t.stats,
    host := t.host, responses := t.responses, sink := t.sink }) : t.Inv := by
  rw [ht]
  exact { h with }

/-- A byte appended to the ring lands in a cell the ring has, and is counted only while there is room. -/
theorem ringAppend (h : s.Inv) (b : Byte) : (s.ringAppend b).Inv := by
  by_cases hroom : s.unread.toNat < s.cfg.ringCap
  · have hunread : (word (s.unread.toNat + 1)).toNat = s.unread.toNat + 1 :=
      word_toNat (Nat.lt_of_le_of_lt hroom (ringCap_lt _))
    rw [ringAppend_room b hroom]
    exact { h with
      ring_wf := Memory.write_wf h.ring_wf _ _
      ring_within := Memory.write_within (advance_lt _ _ _) h.ring_within
      unread_le := hunread.trans_le hroom }
  · rwa [ringAppend_full b (Nat.not_lt.mp hroom)]

theorem foldl_ringAppend (h : s.Inv) (din : List Byte) : (din.foldl State.ringAppend s).Inv := by
  induction din generalizing s with
  | nil => exact h
  | cons b bs ih => exact ih (h.ringAppend b)

theorem consume (h : s.Inv) (n : Nat) : (s.consume n).Inv := by
  have htail : (word (s.advance s.tail.toNat n)).toNat = s.advance s.tail.toNat n :=
    word_toNat (Nat.lt_trans (advance_lt _ _ _) (ringCap_lt _))
  have hunread : (word (s.unread.toNat - n)).toNat = s.unread.toNat - n :=
    word_toNat (Nat.lt_of_le_of_lt (Nat.sub_le _ _) s.unread.isLt)
  exact { h with
    tail_lt := htail.trans_lt (advance_lt _ _ _)
    unread_le := hunread.trans_le (Nat.le_trans (Nat.sub_le _ _) h.unread_le) }

/-- A scan stages at most `M` bytes, from cell 0 on. -/
theorem scanned (h : s.Inv) (k : Nat) {v : List Byte} (hv : v.length ≤ s.cfg.maxFrame) : (s.scanned k 0 v).Inv :=
  { h with
    stage_wf := Memory.writeAll_wf h.stage_wf _ _
    stage_within := Memory.writeAll_within h.stage_within ((Nat.zero_add _).trans_le hv) }

/-- The payload of an accepted frame is one byte shorter than what was staged, so it is below `M`. -/
theorem acceptFrame (h : s.Inv) {dlen : Nat} (hpos : 1 ≤ dlen) (hle : dlen ≤ s.cfg.maxFrame) :
    (acceptFrame dlen s).Inv := by
  have hsize : (word (dlen - 1)).toNat = dlen - 1 := by
    have := ringCap_lt s.cfg
    have := maxFrame_le_ringCap s.cfg
    exact word_toNat (by omega)
  have hstaged : { s with stageSize := word (dlen - 1), cursor := 0 }.Inv := { h with
    stageSize_lt := by rw [hsize]; exact Nat.lt_of_lt_of_le (Nat.sub_one_lt_of_lt hpos) hle
    cursor_le := Nat.zero_le _ }
  exact hstaged.of_frame rfl

theorem verdict (h : s.Inv) {r : ScanVerdict} {u d : Nat} (hr : r.Fits u d) (hd : d ≤ s.cfg.maxFrame) :
    (r.apply s).Inv := by
  cases r with
  | rejected n c x => exact (h.consume n).of_frame rfl
  | accepted n dlen =>
    obtain ⟨-, hpos, rfl⟩ := hr
    exact (h.consume n).acceptFrame hpos hd
  | noFrame => exact h.of_frame rfl

/-- The cursor moves by no more than the payload left. -/
theorem afterCopy (h : s.Inv) (wanted : Nat) :
    (s.afterCopy (min wanted (s.stageSize.toNat - s.cursor.toNat)) wanted).Inv := by
  have hle := h.cursor_le
  have hmoved : s.cursor.toNat + min wanted (s.stageSize.toNat - s.cursor.toNat) ≤ s.stageSize.toNat := by omega
  have hcursor := word_toNat (Nat.lt_of_le_of_lt hmoved s.stageSize.isLt)
  rw [afterCopy_eq]
  exact { h with cursor_le := hcursor.trans_le hmoved }

theorem copyOut (h : s.Inv) {wanted : Nat} {bytes : List Byte} {u : State}
    (hcopy : s.copyOut wanted = .ok (bytes, u)) : u.Inv := by
  obtain ⟨-, -, rfl⟩ := copyOut_cases hcopy
  exact h.afterCopy wanted

theorem discard (h : s.Inv) (rem : Nat) : (s.discard rem).Inv := by
  unfold State.discard
  split
  · exact h.of_frame rfl
  · exact h

end State.Inv

theorem resetWith_inv (cfg : Config) : (State.resetWith cfg).Inv where
  ring_wf := rfl
  ring_within := rfl
  stage_wf := rfl
  stage_within := rfl
  tail_lt := ringCap_pos cfg
  unread_le := Nat.zero_le _
  stageSize_lt := maxFrame_pos cfg
  cursor_le := Nat.le_refl _

/-- Every command leads from a legal state to a legal state. -/
theorem exec_keeps_inv {i : Instr} (h : s.Inv) (he : exec i s = .next t) : t.Inv := by
  cases i with
  | inject din =>
    rw [execInject_next he]
    exact (h.foldl_ringAppend din).of_frame rfl
  | beginRead =>
    obtain ⟨-, rfl⟩ | ⟨-, k, v, r, hv, hr, rfl⟩ := execBeginRead_cases he
    · exact h.of_frame rfl
    · exact (h.scanned k hv).verdict hr hv
  | read n =>
    obtain ⟨-, rfl⟩ | ⟨-, bytes, u, hcopy, rfl⟩ := execRead_next he
    · exact h.of_frame rfl
    · exact (h.copyOut hcopy).of_frame rfl
  | readExact n =>
    obtain ⟨-, rfl⟩ | ⟨-, bytes, u, hcopy, rfl⟩ := execReadExact_next he
    · exact h.of_frame rfl
    · exact (h.copyOut hcopy).of_frame rfl
  | endRead =>
    obtain ⟨-, rfl⟩ | ⟨-, rem, -, rfl⟩ := execEndRead_next he
    · exact h.of_frame rfl
    · exact (h.discard rem).of_frame rfl
  | beginWrite =>
    obtain ⟨-, rfl⟩ | ⟨-, rfl⟩ := execBeginWrite_next he <;> exact h.of_frame rfl
  | write din =>
    obtain ⟨-, rfl⟩ | ⟨-, rfl⟩ := execWrite_next he
    · exact h.of_frame rfl
    · rw [foldl_escWrite_eq]
      exact h.of_frame rfl
  | endWrite =>
    obtain ⟨-, rfl⟩ | ⟨-, rfl⟩ := execEndWrite_next he
    · exact h.of_frame rfl
    · have hwire : s.closeWire.Inv := by
        rw [closeWire_eq]
        exact h.of_frame rfl
      have hrecord : s.closeWire.recordFrame.Inv := hwire.of_frame rfl
      exact hrecord.of_frame rfl
  | stat k =>
    rw [execStat_next he]
    exact h.of_frame rfl

/-! ## The obligations -/

/-- Settles O11, by the cases of a step: idle, malformed transaction, command, reset. -/
theorem stepKeepsLegalStates : Obligations.StepKeepsLegalStates := by
  intro s t h hstep
  obtain ⟨-, rfl⟩ | ⟨tr, rest, e, -, -, rfl⟩ | ⟨tr, rest, i, -, -, he⟩ | ⟨p, rest, hp, -, rfl⟩ := step_next hstep
  · exact h
  · exact h.of_frame rfl
  · exact exec_keeps_inv (h.of_frame rfl) he
  · exact (resetWith_inv _).of_frame rfl

/-- Settles O10: the state after reset samples a valid configuration. -/
theorem resetStateIsLegal : Obligations.ResetStateIsLegal := resetWith_inv Config.inputs

/-- Reset with any configuration gives the registers, sessions and counters their reset values. -/
theorem resetWith_atResetValues (cfg : Config) : AtResetValues (State.resetWith cfg) := by
  refine ⟨rfl, rfl, rfl, rfl, rfl, rfl, rfl, rfl, fun c => ?_⟩
  cases c <;> rfl

/-- Settles O7: the state after reset is a reset with the configuration on the inputs. -/
theorem resetStateHoldsTheResetValues : Obligations.ResetStateHoldsTheResetValues :=
  resetWith_atResetValues Config.inputs

end Sys2Proof.Machine
end

section
/-! PROOFS. `INJECT` extends the unread bytes (41_ingest R60, R63), and the read commands stop in the states that
10_state R20 and R21 rule out (assumption 4). -/

namespace Sys2Proof.Machine

variable {s : State}

/-! ## INJECT -/

/-- Two offsets below the capacity reach different ring cells from one index. -/
theorem advance_ne (s : State) (i : Nat) {j k : Nat} (hjk : j < k) (hk : k < s.cfg.ringCap) :
    s.advance i j ≠ s.advance i k := by
  intro h
  have hmod : j ≡ k [MOD s.cfg.ringCap] := Nat.ModEq.add_left_cancel' i h
  exact Nat.ne_of_lt hjk (hmod.eq_of_lt_of_lt (hjk.trans hk) hk)

/-- A byte appended with room goes behind the unread bytes, none of which it overwrites. -/
theorem unreadBytes_ringAppend_room (h : s.Inv) (b : Byte) (hroom : s.unread.toNat < s.cfg.ringCap) :
    (s.ringAppend b).unreadBytes = s.unreadBytes ++ [b] := by
  have hunread : (word (s.unread.toNat + 1)).toNat = s.unread.toNat + 1 :=
    word_toNat (Nat.lt_of_le_of_lt hroom (ringCap_lt _))
  rw [ringAppend_room b hroom]
  simp only [State.unreadBytes, hunread, List.range_succ, List.map_append, List.map_singleton]
  congr 1
  · refine List.map_congr_left fun j hj => ?_
    exact Memory.read_write_other (advance_ne s _ (List.mem_range.mp hj) hroom) b _
  · exact congrArg (fun x => [x]) (Memory.read_write_same h.ring_wf _ b)

/-- A byte sequence extends the unread bytes by as many as fit. -/
theorem unreadBytes_foldl_ringAppend (h : s.Inv) (din : List Byte) :
    (din.foldl State.ringAppend s).unreadBytes = s.unreadBytes ++ din.take (s.cfg.ringCap - s.unread.toNat) := by
  induction din generalizing s with
  | nil => simp
  | cons b bs ih =>
    rw [List.foldl_cons, ih (h.ringAppend b)]
    by_cases hroom : s.unread.toNat < s.cfg.ringCap
    · have hunread : (s.ringAppend b).unread.toNat = s.unread.toNat + 1 := by
        rw [← unreadBytes_length, unreadBytes_ringAppend_room h b hroom]
        simp
      have hcfg : (s.ringAppend b).cfg = s.cfg := by rw [ringAppend_frame]
      have hleft : s.cfg.ringCap - s.unread.toNat = s.cfg.ringCap - (s.unread.toNat + 1) + 1 := by omega
      rw [unreadBytes_ringAppend_room h b hroom, hunread, hcfg, hleft, List.take_succ_cons, List.append_assoc,
        List.singleton_append]
    · have hfull : s.cfg.ringCap - s.unread.toNat = 0 := Nat.sub_eq_zero_of_le (Nat.not_lt.mp hroom)
      rw [ringAppend_full b (Nat.not_lt.mp hroom), hfull, List.take_zero, List.take_zero]

/-- Settles O20, by induction on the data: a byte with room goes behind the unread bytes, a byte without is dropped. -/
theorem injectExtendsTheUnreadBytes : Obligations.InjectExtendsTheUnreadBytes :=
  fun s din h => ⟨(din.foldl State.ringAppend s).respond .ok 0 [], rfl, unreadBytes_foldl_ringAppend h din⟩

/-! ## Reads in states ruled out -/

theorem payloadLeft_cursorPast (h : s.stageSize.toNat < s.cursor.toNat) : s.payloadLeft = none :=
  if_neg (Nat.not_le.mpr h)

theorem copyOut_cursorPast (h : s.stageSize.toNat < s.cursor.toNat) (wanted : Nat) :
    s.copyOut wanted = .error .cursorPastPayload := by
  rw [State.copyOut, payloadLeft_cursorPast h]

/-- A copy that would read a cell past the staging buffer. -/
theorem copyOut_outOfRange {wanted : Nat} (hle : s.cursor.toNat ≤ s.stageSize.toNat)
    (hpos : 0 < min wanted (s.stageSize.toNat - s.cursor.toNat))
    (hpast : s.cfg.maxFrame < s.cursor.toNat + min wanted (s.stageSize.toNat - s.cursor.toNat)) :
    s.copyOut wanted = .error .stagingIndexOutOfRange := by
  have hstaged : s.stagedBytes (min wanted (s.stageSize.toNat - s.cursor.toNat)) = none :=
    if_neg (not_or.mpr ⟨Nat.ne_of_gt hpos, Nat.not_le.mpr hpast⟩)
  simp only [State.copyOut, payloadLeft_eq hle, hstaged]

/-- READ and READ_EXACT stop with the fault of their copy. -/
theorem exec_read_of_copyOut_error {n : BitVec 16} {f : Fault} (hrx : s.rxState = .reading)
    (h : s.copyOut n.toNat = .error f) : exec (.read n) s = .fault f ∧ exec (.readExact n) s = .fault f := by
  constructor
  · simp only [exec, execRead, whenReading_pass _ hrx, h]
  · simp only [exec, execReadExact, whenReading_pass _ hrx, h]

theorem exec_endRead_cursorPast (hrx : s.rxState = .reading) (h : s.stageSize.toNat < s.cursor.toNat) :
    exec .endRead s = .fault .cursorPastPayload := by
  simp only [exec, execEndRead, whenReading_pass _ hrx, payloadLeft_cursorPast h]

/-- Settles O14, one case for the cursor past the payload and one for a byte past the staging buffer. -/
theorem readCommandsStopInIllegalStates : Obligations.ReadCommandsStopInIllegalStates := by
  refine fun s n hrx => ⟨fun hpast => ?_, fun hle hpos hpast => ?_⟩
  · obtain ⟨hread, hexact⟩ := exec_read_of_copyOut_error hrx (copyOut_cursorPast hpast n.toNat)
    exact ⟨hread, hexact, exec_endRead_cursorPast hrx hpast⟩
  · exact exec_read_of_copyOut_error hrx (copyOut_outOfRange hle hpos hpast)

end Sys2Proof.Machine
end

section
/-! PROOFS. What each command leaves unchanged: the registers, memories and sessions it does not write (10_state R14 to
R25) and the counters outside its rows of 45_statistics R95. -/

namespace Sys2Proof.Machine

variable {s t : State} {i : Instr}

/-! ## Registers, memories and sessions -/

/-- The frame of a command: the state after it is the state before it but for the pieces named here. -/
def StaysInFrame (s t : State) : Instr → Prop
  | .inject _ => t = { s with ring := t.ring, unread := t.unread, responses := t.responses }
  | .beginRead => t = { s with
      tail := t.tail, unread := t.unread, stage := t.stage, stageSize := t.stageSize, cursor := t.cursor,
      rxState := t.rxState, stats := t.stats, responses := t.responses }
  | .read _ => t = { s with cursor := t.cursor, stats := t.stats, responses := t.responses }
  | .readExact _ => t = { s with cursor := t.cursor, stats := t.stats, responses := t.responses }
  | .endRead => t = { s with rxState := t.rxState, stats := t.stats, responses := t.responses }
  | .beginWrite => t = { s with
      txCrc := t.txCrc, txSize := t.txSize, txState := t.txState, sink := t.sink, responses := t.responses }
  | .write _ => t = { s with
      txCrc := t.txCrc, txSize := t.txSize, stats := t.stats, sink := t.sink, responses := t.responses }
  | .endWrite => t = { s with
      txCrc := t.txCrc, txSize := t.txSize, txState := t.txState, stats := t.stats, sink := t.sink,
      responses := t.responses }
  | .stat _ => t = { s with responses := t.responses }

theorem foldl_ringAppend_frame (din : List Byte) (s : State) :
    ∃ r n, din.foldl State.ringAppend s = { s with ring := r, unread := n } := by
  induction din generalizing s with
  | nil => exact ⟨s.ring, s.unread, rfl⟩
  | cons b bs ih =>
    obtain ⟨r, n, hbs⟩ := ih (s.ringAppend b)
    exact ⟨r, n, by rw [List.foldl_cons, hbs, ringAppend_frame]⟩

theorem copyOut_frame {u : State} {wanted : Nat} {bytes : List Byte} (h : s.copyOut wanted = .ok (bytes, u)) :
    u = { s with cursor := u.cursor, stats := u.stats } := by
  obtain ⟨-, -, rfl⟩ := copyOut_cases h
  rw [afterCopy_eq]

theorem discard_frame (s : State) (rem : Nat) : s.discard rem = { s with stats := (s.discard rem).stats } := by
  unfold State.discard
  split <;> rfl

/-- Every command stays within its frame. -/
theorem exec_frame (h : exec i s = .next t) : StaysInFrame s t i := by
  cases i with
  | inject din =>
    obtain ⟨r, n, hfold⟩ := foldl_ringAppend_frame din s
    rw [execInject_next h, hfold]
    rfl
  | beginRead =>
    obtain ⟨-, rfl⟩ | ⟨-, k, v, r, -, -, rfl⟩ := execBeginRead_cases h
    · rfl
    · cases r <;> rfl
  | read n =>
    obtain ⟨-, rfl⟩ | ⟨-, bytes, u, hcopy, rfl⟩ := execRead_next h
    · rfl
    · rw [copyOut_frame hcopy]
      rfl
  | readExact n =>
    obtain ⟨-, rfl⟩ | ⟨-, bytes, u, hcopy, rfl⟩ := execReadExact_next h
    · rfl
    · rw [copyOut_frame hcopy]
      rfl
  | endRead =>
    obtain ⟨-, rfl⟩ | ⟨-, rem, -, rfl⟩ := execEndRead_next h
    · rfl
    · rw [discard_frame]
      rfl
  | beginWrite =>
    obtain ⟨-, rfl⟩ | ⟨-, rfl⟩ := execBeginWrite_next h <;> rfl
  | write din =>
    obtain ⟨-, rfl⟩ | ⟨-, rfl⟩ := execWrite_next h
    · rfl
    · rw [foldl_escWrite_eq]
      rfl
  | endWrite =>
    obtain ⟨-, rfl⟩ | ⟨-, rfl⟩ := execEndWrite_next h
    · rfl
    · rw [closeWire_eq]
      rfl
  | stat k =>
    rw [execStat_next h]
    rfl

/-- The pieces of state other than the counters, each with its writers. -/
theorem exec_register_writers (h : exec i s = .next t) :
    t.cfg = s.cfg ∧ t.host = s.host ∧
    ((∀ d, i ≠ .inject d) → t.ring = s.ring) ∧
    (i ≠ .beginRead → t.tail = s.tail ∧ t.stage = s.stage ∧ t.stageSize = s.stageSize) ∧
    (i ≠ .beginRead → (∀ d, i ≠ .inject d) → t.unread = s.unread) ∧
    (i ≠ .beginRead → (∀ n, i ≠ .read n) → (∀ n, i ≠ .readExact n) → t.cursor = s.cursor) ∧
    (i ≠ .beginRead → i ≠ .endRead → t.rxState = s.rxState) ∧
    (i ≠ .beginWrite → i ≠ .endWrite → t.txState = s.txState) ∧
    (i ≠ .beginWrite → i ≠ .endWrite → (∀ d, i ≠ .write d) →
      t.txCrc = s.txCrc ∧ t.txSize = s.txSize ∧ t.sink = s.sink) := by
  have hframe := exec_frame h
  cases i <;> (simp only [StaysInFrame] at hframe; rw [hframe]; simp)

/-! ## Counters -/

/-- The commands that write a counter (45_statistics R95). -/
def Counter.WrittenBy (i : Instr) : Counter → Prop
  | .readOverreach => (∃ n, i = .read n) ∨ ∃ n, i = .readExact n
  | .readDiscardFrameCount => i = .endRead
  | .readDiscardByteCount => i = .endRead
  | .readByteCount => (∃ n, i = .read n) ∨ (∃ n, i = .readExact n) ∨ i = .endRead
  | .writeFrameMinSize => i = .endWrite
  | .writeFrameMaxSize => i = .endWrite
  | .writeFrameCount => i = .endWrite
  | .writeByteCount => (∃ d, i = .write d) ∨ i = .endWrite
  | _ => i = .beginRead

/-- A counter that a command does not write is none of those it writes. -/
theorem Counter.ne_of_writtenBy {c d : Counter} (hc : ¬ c.WrittenBy i) (hd : d.WrittenBy i) : c ≠ d := by
  rintro rfl
  exact hc hd

theorem get_count_other {c d : Counter} (s : State) (a : Nat) (h : d ≠ c) :
    (s.count c a).stats.get d = s.stats.get d := Stats.get_set_other _ _ h

theorem get_lower_other {c d : Counter} (s : State) (v : Word) (h : d ≠ c) :
    (s.lower c v).stats.get d = s.stats.get d := Stats.get_set_other _ _ h

theorem get_raise_other {c d : Counter} (s : State) (v : Word) (h : d ≠ c) :
    (s.raise c v).stats.get d = s.stats.get d := Stats.get_set_other _ _ h

theorem rejections_writtenBy {c : Counter} {x : Status} (h : (x, c) ∈ rejections) : c.WrittenBy .beginRead := by
  simp only [rejections, List.mem_cons, Prod.mk.injEq, List.not_mem_nil, or_false] at h
  obtain ⟨-, rfl⟩ | ⟨-, rfl⟩ | ⟨-, rfl⟩ | ⟨-, rfl⟩ := h <;> rfl

/-- A verdict writes the counters of `BEGIN_READ` only. -/
theorem verdict_counter {r : ScanVerdict} {u d : Nat} {c : Counter} (hr : r.Fits u d)
    (hc : ¬ c.WrittenBy .beginRead) (s : State) : (r.apply s).stats.get c = s.stats.get c := by
  have hne : ∀ {b : Counter}, b.WrittenBy .beginRead → c ≠ b := Counter.ne_of_writtenBy hc
  cases r with
  | rejected n b x =>
    obtain ⟨-, hb⟩ := hr
    exact get_count_other _ 1 (hne (rejections_writtenBy hb))
  | accepted n dlen =>
    have hcount : c ≠ .rxFrameCount := hne rfl
    have hmax : c ≠ .maxRxFrameSize := hne rfl
    have hmin : c ≠ .minRxFrameSize := hne rfl
    simp only [ScanVerdict.apply, acceptFrame, State.respond_stats, get_count_other _ _ hcount,
      get_raise_other _ _ hmax, get_lower_other _ _ hmin, State.consume_stats]
  | noFrame => rfl

/-- The copy of `READ` and `READ_EXACT` writes its two counters only. -/
theorem copyOut_counter {u : State} {wanted : Nat} {bytes : List Byte} {c : Counter}
    (h : s.copyOut wanted = .ok (bytes, u)) (hbytes : c ≠ .readByteCount) (hover : c ≠ .readOverreach) :
    u.stats.get c = s.stats.get c := by
  obtain ⟨-, -, rfl⟩ := copyOut_cases h
  unfold State.afterCopy
  dsimp only
  split
  · rw [get_count_other _ _ hover, get_count_other _ _ hbytes]
  · rw [get_count_other _ _ hbytes]

theorem discard_counter {c : Counter} (hc : ¬ c.WrittenBy .endRead) (s : State) (rem : Nat) :
    (s.discard rem).stats.get c = s.stats.get c := by
  have hframes : c ≠ .readDiscardFrameCount := Counter.ne_of_writtenBy hc rfl
  have hdiscarded : c ≠ .readDiscardByteCount := Counter.ne_of_writtenBy hc rfl
  have hbytes : c ≠ .readByteCount := Counter.ne_of_writtenBy hc (.inr (.inr rfl))
  unfold State.discard
  split
  · rw [get_count_other _ _ hbytes, get_count_other _ _ hdiscarded, get_count_other _ _ hframes]
  · rfl

theorem closeWire_recordFrame_counter {c : Counter} (hc : ¬ c.WrittenBy .endWrite) (s : State) :
    s.closeWire.recordFrame.stats.get c = s.stats.get c := by
  have hcount : c ≠ .writeFrameCount := Counter.ne_of_writtenBy hc rfl
  have hmin : c ≠ .writeFrameMinSize := Counter.ne_of_writtenBy hc rfl
  have hmax : c ≠ .writeFrameMaxSize := Counter.ne_of_writtenBy hc rfl
  have hbytes : c ≠ .writeByteCount := Counter.ne_of_writtenBy hc (.inr rfl)
  rw [State.recordFrame, get_raise_other _ _ hmax, get_lower_other _ _ hmin, get_count_other _ _ hcount,
    closeWire_eq, Stats.get_set_other _ _ hbytes]

/-- A command leaves every counter alone but those of its rows in R95. -/
theorem exec_counter {c : Counter} (h : exec i s = .next t) (hc : ¬ c.WrittenBy i) :
    t.stats.get c = s.stats.get c := by
  cases i with
  | inject din => rw [exec_frame h]
  | beginRead =>
    obtain ⟨-, rfl⟩ | ⟨-, k, v, r, -, hr, rfl⟩ := execBeginRead_cases h
    · rfl
    · rw [verdict_counter hr hc]
      exact get_count_other s k (Counter.ne_of_writtenBy hc rfl)
  | read n =>
    obtain ⟨-, rfl⟩ | ⟨-, bytes, u, hcopy, rfl⟩ := execRead_next h
    · rfl
    · rw [State.respond_stats]
      exact copyOut_counter hcopy (Counter.ne_of_writtenBy hc (.inl ⟨n, rfl⟩))
          (Counter.ne_of_writtenBy hc (.inl ⟨n, rfl⟩))
  | readExact n =>
    obtain ⟨-, rfl⟩ | ⟨-, bytes, u, hcopy, rfl⟩ := execReadExact_next h
    · rfl
    · rw [State.respond_stats]
      exact copyOut_counter hcopy (Counter.ne_of_writtenBy hc (.inr (.inl ⟨n, rfl⟩)))
          (Counter.ne_of_writtenBy hc (.inr ⟨n, rfl⟩))
  | endRead =>
    obtain ⟨-, rfl⟩ | ⟨-, rem, -, rfl⟩ := execEndRead_next h
    · rfl
    · exact discard_counter hc s rem
  | beginWrite => rw [exec_frame h]
  | write din =>
    obtain ⟨-, rfl⟩ | ⟨-, rfl⟩ := execWrite_next h
    · rfl
    · have hbytes : c ≠ .writeByteCount := Counter.ne_of_writtenBy hc (.inl ⟨din, rfl⟩)
      rw [State.respond_stats, get_count_other _ _ hbytes, foldl_escWrite_eq]
  | endWrite =>
    obtain ⟨-, rfl⟩ | ⟨-, rfl⟩ := execEndWrite_next h
    · rfl
    · exact closeWire_recordFrame_counter hc s
  | stat k => rw [exec_frame h]

/-- Settles O18: the registers by the frame of each command, the counters by their rows of R95. -/
theorem eachRegisterHasOnlyItsWriters : Obligations.EachRegisterHasOnlyItsWriters := by
  intro s t i h
  have hcounter : ∀ c : Counter, ¬ c.WrittenBy i → t.stats.get c = s.stats.get c := fun _ => exec_counter h
  obtain ⟨hcfg, hhost, hring, htail, hunread, hcursor, hrx, htx, hsink⟩ := exec_register_writers h
  refine ⟨hcfg, hhost, hring, htail, hunread, hcursor, hrx, htx, hsink, fun hi c hc => hcounter c ?_,
    fun hr he => hcounter .readOverreach ?_,
    fun hi => ⟨hcounter .readDiscardFrameCount hi, hcounter .readDiscardByteCount hi⟩,
    fun hr he hi => hcounter .readByteCount ?_, fun hi c hc => hcounter c ?_,
    fun hi hw => hcounter .writeByteCount ?_⟩
  · simp only [List.mem_cons, List.not_mem_nil, or_false] at hc
    obtain rfl | rfl | rfl | rfl | rfl | rfl | rfl | rfl := hc <;> exact hi
  · simp [Counter.WrittenBy, hr, he]
  · simp [Counter.WrittenBy, hr, he, hi]
  · simp only [List.mem_cons, List.not_mem_nil, or_false] at hc
    obtain rfl | rfl | rfl := hc <;> exact hi
  · simp [Counter.WrittenBy, hi, hw]

/-! ## Sessions -/

/-- A verdict that opens a session answers `OK`. -/
theorem verdict_opens {r : ScanVerdict} (hs : s.rxState = .notReading) (h : (r.apply s).rxState = .reading) :
    ∃ v, (r.apply s).responses = s.responses ++ [⟨.ok, v, []⟩] := by
  cases r with
  | rejected n c x => exact absurd (hs.symm.trans h) (by decide)
  | accepted n dlen => exact ⟨_, rfl⟩
  | noFrame => exact absurd (hs.symm.trans h) (by decide)

/-- Commands other than `BEGIN_READ` and `END_READ` keep the receive session, and `END_READ` opens none. -/
theorem beginRead_of_rxState_opens (h : exec i s = .next t) (hs : s.rxState = .notReading) (ht : t.rxState = .reading) :
    i = .beginRead := by
  by_contra hbegin
  have hkept : t.rxState = s.rxState := by
    by_cases hend : i = .endRead
    · subst hend
      obtain ⟨-, rfl⟩ | ⟨hrx, -⟩ := execEndRead_next h
      · rfl
      · exact absurd (hs.symm.trans hrx) (by decide)
    · obtain ⟨-, -, -, -, -, -, hrx, -⟩ := exec_register_writers h
      exact hrx hbegin hend
  exact absurd (hs.symm.trans (hkept.symm.trans ht)) (by decide)

/-- In a session `BEGIN_READ` only answers `NotReady`. -/
theorem execBeginRead_reading (h : exec .beginRead s = .next t) (hs : s.rxState = .reading) : t = s.fail .notReady := by
  obtain ⟨-, ht⟩ | ⟨hrx, -⟩ := execBeginRead_cases h
  · exact ht
  · exact absurd (hs.symm.trans hrx) (by decide)

theorem endRead_of_rxState_closes (h : exec i s = .next t) (hs : s.rxState = .reading) (ht : t.rxState = .notReading) :
    i = .endRead := by
  by_contra hend
  have hkept : t.rxState = s.rxState := by
    by_cases hbegin : i = .beginRead
    · subst hbegin
      rw [execBeginRead_reading h hs, State.fail_rxState]
    · obtain ⟨-, -, -, -, -, -, hrx, -⟩ := exec_register_writers h
      exact hrx hbegin hend
  exact absurd (hs.symm.trans (hkept.symm.trans ht)) (by decide)

theorem staged_of_reading (h : exec i s = .next t) (hs : s.rxState = .reading) :
    t.stage = s.stage ∧ t.stageSize = s.stageSize := by
  by_cases hbegin : i = .beginRead
  · subst hbegin
    rw [execBeginRead_reading h hs]
    exact ⟨rfl, rfl⟩
  · obtain ⟨-, -, -, hstaged, -⟩ := exec_register_writers h
    exact (hstaged hbegin).2

/-- A change of the transmit session is that of a successful `BEGIN_WRITE` or `END_WRITE`. -/
theorem txState_changes (h : exec i s = .next t) (hne : t.txState ≠ s.txState) :
    t.responses = s.responses ++ [⟨.ok, 0, []⟩] ∧
      ((i = .beginWrite ∧ t.txState = .writing) ∨ (i = .endWrite ∧ t.txState = .notWriting)) := by
  by_cases hbegin : i = .beginWrite
  · subst hbegin
    obtain ⟨-, rfl⟩ | ⟨-, rfl⟩ := execBeginWrite_next h
    · exact absurd rfl hne
    · exact ⟨rfl, .inl ⟨rfl, rfl⟩⟩
  by_cases hend : i = .endWrite
  · subst hend
    obtain ⟨-, rfl⟩ | ⟨-, rfl⟩ := execEndWrite_next h
    · exact absurd rfl hne
    · rw [closeWire_eq]
      exact ⟨rfl, .inr ⟨rfl, rfl⟩⟩
  · obtain ⟨-, -, -, -, -, -, -, htx, -⟩ := exec_register_writers h
    exact absurd (htx hbegin hend) hne

/-- Settles O17, a clause for each way a session can change and one for the staged frame. -/
theorem sessionsChangeOnlyByTheirCommands : Obligations.SessionsChangeOnlyByTheirCommands := by
  intro s t i h
  refine ⟨fun hs ht => ?_, endRead_of_rxState_closes h, staged_of_reading h, fun hs ht => ?_, fun hs ht => ?_⟩
  · obtain rfl := beginRead_of_rxState_opens h hs ht
    obtain ⟨hrx, -⟩ | ⟨-, k, v, r, -, -, rfl⟩ := execBeginRead_cases h
    · exact absurd (hs.symm.trans hrx) (by decide)
    · exact ⟨rfl, verdict_opens (s := s.scanned k 0 v) hs ht⟩
  · obtain ⟨hok, ⟨hi, -⟩ | ⟨-, hclosed⟩⟩ := txState_changes h (by rw [hs, ht]; decide)
    · exact ⟨hi, hok⟩
    · exact absurd (ht.symm.trans hclosed) (by decide)
  · obtain ⟨hok, ⟨-, hopen⟩ | ⟨hi, -⟩⟩ := txState_changes h (by rw [hs, ht]; decide)
    · exact absurd (ht.symm.trans hopen) (by decide)
    · exact ⟨hi, hok⟩

end Sys2Proof.Machine
end

section
/-! PROOFS. What 10_state R15, R19 and R31 call unobservable is never observed: every operation, and so every step, leads
from states that differ only in it to states that differ only in it. -/

namespace Sys2Proof.Machine

variable {s u : State}

/-! ## The operations -/

namespace State.Alike

theorem withHost (h : s.Alike u) (rest : List HostEvent) :
    { s with host := rest }.Alike { u with host := rest } := { h with host := rfl }

theorem respond (h : s.Alike u) (x : Status) (v : Word) (d : List Byte) :
    (s.respond x v d).Alike (u.respond x v d) := { h with responses := congrArg (· ++ _) h.responses }

theorem fail (h : s.Alike u) (x : Status) : (s.fail x).Alike (u.fail x) := h.respond x 0 []

theorem count (h : s.Alike u) (c : Counter) (a : Nat) : (s.count c a).Alike (u.count c a) :=
  { h with stats := by rw [State.count_stats, State.count_stats, h.cfg, h.stats] }

theorem lower (h : s.Alike u) (c : Counter) (v : Word) : (s.lower c v).Alike (u.lower c v) :=
  { h with stats := by rw [State.lower_stats, State.lower_stats, h.stats] }

theorem raise (h : s.Alike u) (c : Counter) (v : Word) : (s.raise c v).Alike (u.raise c v) :=
  { h with stats := by rw [State.raise_stats, State.raise_stats, h.stats] }

theorem consume (h : s.Alike u) {n : Nat} (hn : n ≤ s.unread.toNat) : (s.consume n).Alike (u.consume n) :=
  { h with
    unread := by rw [State.consume_unread, State.consume_unread, h.unread]
    unreadBytes := by
      rw [unreadBytes_consume s hn, unreadBytes_consume u (h.unread ▸ hn), h.unreadBytes] }

/-- Where the ring has room, in both states, the byte goes behind the unread bytes; else both drop it. -/
theorem ringAppend (h : s.Alike u) (hs : s.Inv) (hu : u.Inv) (b : Byte) :
    (s.ringAppend b).Alike (u.ringAppend b) := by
  by_cases hroom : s.unread.toNat < s.cfg.ringCap
  · have hroom' : u.unread.toNat < u.cfg.ringCap := by rwa [← h.unread, ← h.cfg]
    have hbytes : (s.ringAppend b).unreadBytes = (u.ringAppend b).unreadBytes := by
      rw [unreadBytes_ringAppend_room hs b hroom, unreadBytes_ringAppend_room hu b hroom', h.unreadBytes]
    rw [ringAppend_room b hroom, ringAppend_room b hroom'] at hbytes ⊢
    exact { h with
      unread := congrArg (fun n : Word => word (n.toNat + 1)) h.unread
      unreadBytes := hbytes }
  · have hfull : s.cfg.ringCap ≤ s.unread.toNat := Nat.not_lt.mp hroom
    have hfull' : u.cfg.ringCap ≤ u.unread.toNat := by rwa [← h.unread, ← h.cfg]
    rwa [ringAppend_full b hfull, ringAppend_full b hfull']

theorem foldl_ringAppend (h : s.Alike u) (hs : s.Inv) (hu : u.Inv) (din : List Byte) :
    (din.foldl State.ringAppend s).Alike (din.foldl State.ringAppend u) := by
  induction din generalizing s u with
  | nil => exact h
  | cons b bs ih => exact ih (h.ringAppend hs hu b) (hs.ringAppend b) (hu.ringAppend b)

/-- With no session open the staging buffer is unobservable. -/
theorem scanned (h : s.Alike u) (hrx : s.rxState = .notReading) (k : Nat) (v : List Byte) :
    (s.scanned k 0 v).Alike (u.scanned k 0 v) :=
  { h.count .rxFalseStarts k with reading := fun hr => absurd (hrx.symm.trans hr) (by decide) }

/-- An accepted frame opens a session in both states, with the same payload staged. -/
theorem acceptFrame (h : s.Alike u) {dlen : Nat} (hstaged : ∀ j, j < dlen → s.stageRead j = u.stageRead j) :
    (acceptFrame dlen s).Alike (acceptFrame dlen u) := by
  have hsize : (word (dlen - 1)).toNat ≤ dlen :=
    (Nat.mod_le _ _).trans (Nat.sub_le _ _)
  have hcounted := ((h.lower .minRxFrameSize (word (dlen - 1))).raise .maxRxFrameSize (word (dlen - 1))).count
    .rxFrameCount 1
  have hopen := hcounted.respond .ok (word (dlen - 1)) []
  exact { hopen with
    rxState := rfl
    reading := fun _ => ⟨rfl, rfl, fun j hj => hstaged j (Nat.lt_of_lt_of_le hj hsize)⟩ }

/-- The same verdict over the same staged bytes. -/
theorem verdict (h : s.Alike u) {r : ScanVerdict} {d : Nat} (hr : r.Fits s.unread.toNat d)
    (hstaged : ∀ j, j < d → s.stageRead j = u.stageRead j) : (r.apply s).Alike (r.apply u) := by
  cases r with
  | rejected n c x =>
    obtain ⟨hn, -⟩ := hr
    exact ((h.consume hn).count c 1).fail x
  | accepted n dlen =>
    obtain ⟨hn, -, rfl⟩ := hr
    exact (h.consume hn).acceptFrame hstaged
  | noFrame => exact h.fail .noFrame

theorem afterCopy (h : s.Alike u) (hrx : s.rxState = .reading) (k wanted : Nat) :
    (s.afterCopy k wanted).Alike (u.afterCopy k wanted) := by
  obtain ⟨hsize, hcursor, hstaged⟩ := h.reading hrx
  have hmoved : { s with cursor := word (s.cursor.toNat + k) }.Alike { u with cursor := word (u.cursor.toNat + k) } :=
    { h with reading := fun _ => ⟨hsize, congrArg (fun c : Word => word (c.toNat + k)) hcursor, hstaged⟩ }
  have hcounted := hmoved.count .readByteCount k
  unfold State.afterCopy
  dsimp only
  split
  · exact hcounted.count .readOverreach 1
  · exact hcounted

theorem discard (h : s.Alike u) (rem : Nat) : (s.discard rem).Alike (u.discard rem) := by
  unfold State.discard
  split
  · exact ((h.count _ _).count _ _).count _ _
  · exact h

theorem emit_delim (h : s.Alike u) : (s.emit s.cfg.delim).Alike (u.emit u.cfg.delim) :=
  { h with sink := by rw [State.emit_sink, State.emit_sink, h.cfg, h.sink] }

/-- In an open frame both encoders hold the same checksum and byte counter, and go on alike. -/
theorem foldl_escWrite (h : s.Alike u) (htx : s.txState = .writing) (din : List Byte) :
    (din.foldl State.escWrite s).Alike (din.foldl State.escWrite u) := by
  obtain ⟨hcrc, hsize⟩ := h.writing htx
  rw [foldl_escWrite_eq, foldl_escWrite_eq]
  exact { h with
    sink := by simp only [h.cfg, h.sink]
    writing := fun _ => by simp only [h.cfg, hcrc, hsize, and_self] }

theorem closeWire (h : s.Alike u) (htx : s.txState = .writing) : s.closeWire.Alike u.closeWire := by
  obtain ⟨hcrc, hsize⟩ := h.writing htx
  rw [closeWire_eq, closeWire_eq]
  exact { h with
    stats := by simp only [h.cfg, h.stats]
    sink := by simp only [h.cfg, hcrc, h.sink]
    writing := fun _ => by simp only [h.cfg, hcrc, hsize, and_self] }

theorem recordFrame (h : s.Alike u) (htx : s.txState = .writing) : s.recordFrame.Alike u.recordFrame := by
  obtain ⟨-, hsize⟩ := h.writing htx
  unfold State.recordFrame
  rw [← hsize]
  exact ((h.count _ _).lower _ _).raise _ _

end State.Alike

/-! ## The commands -/

/-- Whatever next state the first result gives, the second gives one alike. -/
def Result.Alike (r q : Result) : Prop := ∀ t, r = .next t → ∃ v, q = .next v ∧ t.Alike v

theorem State.Alike.next (h : s.Alike u) : Result.Alike (.next s) (.next u) := by
  rintro t ⟨⟩
  exact ⟨u, rfl, h⟩

theorem whenNotReading_alike (h : s.Alike u) {r q : Result} (hbody : s.rxState = .notReading → Result.Alike r q) :
    Result.Alike (whenNotReading s r) (whenNotReading u q) := by
  cases hrx : s.rxState with
  | notReading => rw [whenNotReading_pass r hrx, whenNotReading_pass q (h.rxState ▸ hrx)]; exact hbody hrx
  | reading => rw [whenNotReading_stop r hrx, whenNotReading_stop q (h.rxState ▸ hrx)]; exact (h.fail _).next

theorem whenReading_alike (h : s.Alike u) {r q : Result} (hbody : s.rxState = .reading → Result.Alike r q) :
    Result.Alike (whenReading s r) (whenReading u q) := by
  cases hrx : s.rxState with
  | notReading => rw [whenReading_stop r hrx, whenReading_stop q (h.rxState ▸ hrx)]; exact (h.fail _).next
  | reading => rw [whenReading_pass r hrx, whenReading_pass q (h.rxState ▸ hrx)]; exact hbody hrx

theorem whenNotWriting_alike (h : s.Alike u) {r q : Result} (hbody : s.txState = .notWriting → Result.Alike r q) :
    Result.Alike (whenNotWriting s r) (whenNotWriting u q) := by
  cases htx : s.txState with
  | notWriting => rw [whenNotWriting_pass r htx, whenNotWriting_pass q (h.txState ▸ htx)]; exact hbody htx
  | writing => rw [whenNotWriting_stop r htx, whenNotWriting_stop q (h.txState ▸ htx)]; exact (h.fail _).next

theorem whenWriting_alike (h : s.Alike u) {r q : Result} (hbody : s.txState = .writing → Result.Alike r q) :
    Result.Alike (whenWriting s r) (whenWriting u q) := by
  cases htx : s.txState with
  | notWriting => rw [whenWriting_stop r htx, whenWriting_stop q (h.txState ▸ htx)]; exact (h.fail _).next
  | writing => rw [whenWriting_pass r htx, whenWriting_pass q (h.txState ▸ htx)]; exact hbody htx

/-- In an open session two legal states copy the same bytes out, and are left alike. -/
theorem copyOut_alike (h : s.Alike u) (hs : s.Inv) (hu : u.Inv) (hrx : s.rxState = .reading) (wanted : Nat) :
    ∃ bytes a b, s.copyOut wanted = .ok (bytes, a) ∧ u.copyOut wanted = .ok (bytes, b) ∧ a.Alike b := by
  obtain ⟨hsize, hcursor, hstaged⟩ := h.reading hrx
  refine ⟨_, _, _, copyOut_ok hs.cursor_le hs.stageSize_lt wanted, ?_, h.afterCopy hrx _ _⟩
  rw [copyOut_ok hu.cursor_le hu.stageSize_lt wanted, ← hsize, ← hcursor]
  refine congrArg (fun bytes => Except.ok (bytes, _)) (List.map_congr_left fun j hj => ?_)
  rw [List.mem_range] at hj
  exact (hstaged _ (by omega)).symm

/-- A scan of either state stages the same bytes. -/
theorem stageRead_scanned (hs : s.Inv) (hu : u.Inv) (k : Nat) (v : List Byte) {j : Nat} (hj : j < v.length) :
    (s.scanned k 0 v).stageRead j = (u.scanned k 0 v).stageRead j := by
  obtain ⟨hv, -⟩ := stagedOver_writeAll hs.stage_wf v
  obtain ⟨hv', -⟩ := stagedOver_writeAll hu.stage_wf v
  exact (hv j hj).trans (hv' j hj).symm

/-- Two legal states that differ only in what is unobservable answer every command alike. -/
theorem exec_alike (h : s.Alike u) (hs : s.Inv) (hu : u.Inv) (i : Instr) : Result.Alike (exec i s) (exec i u) := by
  cases i with
  | inject din => exact ((h.foldl_ringAppend hs hu din).respond _ _ _).next
  | beginRead =>
    refine whenNotReading_alike h fun hrx => ?_
    obtain ⟨k, v, r, -, hr, hexec⟩ := execBeginRead_verdict s.cfg s.unreadBytes
    have hrx' : u.rxState = .notReading := h.rxState ▸ hrx
    have hexecS := hexec s rfl rfl hrx
    have hexecU := hexec u h.cfg.symm h.unreadBytes.symm hrx'
    simp only [exec, execBeginRead, whenNotReading_pass _ hrx, whenNotReading_pass _ hrx'] at hexecS hexecU
    rw [hexecS, hexecU]
    rw [unreadBytes_length] at hr
    exact ((h.scanned hrx k v).verdict hr fun j hj => stageRead_scanned hs hu k v hj).next
  | read n =>
    refine whenReading_alike h fun hrx => ?_
    obtain ⟨bytes, a, b, hcopyS, hcopyU, hab⟩ := copyOut_alike h hs hu hrx n.toNat
    rw [hcopyS, hcopyU]
    exact (hab.respond _ _ _).next
  | readExact n =>
    refine whenReading_alike h fun hrx => ?_
    obtain ⟨bytes, a, b, hcopyS, hcopyU, hab⟩ := copyOut_alike h hs hu hrx n.toNat
    rw [hcopyS, hcopyU]
    exact (hab.respond _ _ _).next
  | endRead =>
    refine whenReading_alike h fun hrx => ?_
    obtain ⟨hsize, hcursor, -⟩ := h.reading hrx
    rw [payloadLeft_eq hs.cursor_le, payloadLeft_eq hu.cursor_le, ← hsize, ← hcursor]
    have hclosed := (h.discard (s.stageSize.toNat - s.cursor.toNat)).respond .ok 0 []
    exact State.Alike.next { hclosed with rxState := rfl, reading := nofun }
  | beginWrite =>
    refine whenNotWriting_alike h fun _ => ?_
    have hopen := h.emit_delim.respond .ok 0 []
    exact State.Alike.next { hopen with txState := rfl, writing := fun _ => ⟨rfl, rfl⟩ }
  | write din =>
    exact whenWriting_alike h fun htx => (((h.foldl_escWrite htx din).count _ _).respond _ _ _).next
  | endWrite =>
    refine whenWriting_alike h fun htx => ?_
    have hopen : s.closeWire.txState = .writing := by rw [closeWire_eq]; exact htx
    have hclosed := ((h.closeWire htx).recordFrame hopen).respond .ok 0 []
    exact State.Alike.next { hclosed with txState := rfl, writing := nofun }
  | stat k =>
    show Result.Alike (.next (s.respond .ok (s.stats.get (Counter.ofNumber k)) []))
      (.next (u.respond .ok (u.stats.get (Counter.ofNumber k)) []))
    rw [← h.stats]
    exact (h.respond _ _ _).next

/-! ## The step -/

/-- A reset leaves nothing of the old state but the ports. -/
theorem applyReset_alike (h : s.Alike u) (cfg : Config) : (s.applyReset cfg).Alike (u.applyReset cfg) where
  cfg := rfl
  unread := rfl
  unreadBytes := rfl
  rxState := rfl
  txState := rfl
  stats := rfl
  host := h.host
  responses := h.responses
  sink := h.sink
  reading := nofun
  writing := nofun

theorem perform_alike (h : s.Alike u) (hs : s.Inv) (hu : u.Inv) (e : HostEvent) :
    Result.Alike (perform e s) (perform e u) := by
  cases e with
  | command tr =>
    simp only [perform, performCommand]
    cases decode tr with
    | error => exact (h.fail _).next
    | ok i => exact exec_alike h hs hu i
  | reset p =>
    simp only [perform, performReset]
    split
    · exact (applyReset_alike h _).next
    · exact nofun

theorem step_alike (h : s.Alike u) (hs : s.Inv) (hu : u.Inv) : Result.Alike (step s) (step u) := by
  cases hhost : s.host with
  | nil =>
    rw [step_of_host_nil hhost, step_of_host_nil (h.host ▸ hhost)]
    exact h.next
  | cons e rest =>
    rw [step_of_host_cons hhost, step_of_host_cons (h.host ▸ hhost)]
    exact perform_alike (h.withHost rest) (hs.of_frame rfl) (hu.of_frame rfl) e

/-- Settles O46: each operation, and so each command and each step, leaves states alike that were alike. -/
theorem unobservableStateIsNeverObserved : Obligations.UnobservableStateIsNeverObserved :=
  fun _ _ t hs hu h hstep => step_alike h hs hu t hstep

end Sys2Proof.Machine
end

section
/-! PROOFS. The decoder and the encoder are inverse (30_encoding R51 to R53, R58), and the transactions that decode are
those that R56 does not call malformed. -/

namespace Sys2Proof

/-! ## The operand decoders -/

theorem decodeData_eq_ok {make : List Byte → Instr} {arg : BitVec 16} {din : List Byte} {i : Instr} :
    decodeData make arg din = .ok i ↔ din.length = arg.toNat ∧ make din = i := by
  unfold decodeData
  split <;> simp [*]

theorem decodeArg_eq_ok {j i : Instr} {din : List Byte} : decodeArg j din = .ok i ↔ din = [] ∧ j = i := by
  cases din <;> simp [decodeArg]

theorem decodePlain_eq_ok {j i : Instr} {arg : BitVec 16} {din : List Byte} :
    decodePlain j arg din = .ok i ↔ arg = 0 ∧ din = [] ∧ j = i := by
  unfold decodePlain
  split
  · next h => rw [decodeArg_eq_ok, and_iff_right h]
  · next h => exact ⟨nofun, fun ⟨ha, _⟩ => absurd ha h⟩

theorem decodeStat_eq_ok {i : Instr} {arg : BitVec 16} {din : List Byte} :
    decodeStat arg din = .ok i ↔ ∃ k : Fin 16, k.val = arg.toNat ∧ din = [] ∧ .stat k = i := by
  unfold decodeStat
  split
  · next h =>
    rw [decodeArg_eq_ok]
    exact ⟨fun ⟨hd, hi⟩ => ⟨⟨_, h⟩, rfl, hd, hi⟩, fun ⟨⟨_, _⟩, hk, hd, hi⟩ => by subst hk; exact ⟨hd, hi⟩⟩
  · next h => exact ⟨nofun, fun ⟨k, hk, _⟩ => absurd (hk ▸ k.isLt) h⟩

/-! ## Decoding an encoding -/

/-- A well-formed command's own opcode, argument and data decode to it. -/
theorem decodeOperands_of_wf {i : Instr} (h : i.wf = true) : decodeOperands i.opcode i.arg i.data = .ok i := by
  cases i with
  | inject din | write din => exact decodeData_eq_ok.mpr ⟨(Laws.FixedBits.length_arg h).symm, rfl⟩
  | read n | readExact n => rfl
  | beginRead | endRead | beginWrite | endWrite => rfl
  | stat k =>
    have hk : k.val = (BitVec.ofNat 16 k.val).toNat := by
      have := k.isLt
      simp only [BitVec.toNat_ofNat]
      omega
    exact decodeStat_eq_ok.mpr ⟨k, hk, rfl, rfl⟩

/-- The decoder reads the opcode, the reserved field and the argument of an encoding as they were written. -/
theorem decode_encode_eq (i : Instr) : decode (encode i) = decodeOperands i.opcode i.arg i.data := by
  simp [decode, encode]

/-- Settles O1: the fields read back as written, and the operands by cases of the command. -/
theorem encodedCommandDecodesBack : Obligations.EncodedCommandDecodesBack := by
  intro i h
  rw [decode_encode_eq, decodeOperands_of_wf h]

/-! ## Encoding a decoded command -/

/-- A command that operands decode to is well-formed and has that opcode, argument and data. -/
theorem wf_of_decodeOperands {op : Opcode} {arg : BitVec 16} {din : List Byte} {i : Instr}
    (h : decodeOperands op arg din = .ok i) : i.wf = true ∧ i.opcode = op ∧ i.arg = arg ∧ i.data = din := by
  have hdata : din.length = arg.toNat → decide (din.length ≤ 65535) = true ∧ BitVec.ofNat 16 din.length = arg := by
    intro hl
    have := arg.isLt
    exact ⟨decide_eq_true (by omega), by rw [hl, BitVec.ofNat_toNat, BitVec.setWidth_eq]⟩
  cases op with
  | inject | write =>
    obtain ⟨hl, rfl⟩ := decodeData_eq_ok.mp h
    obtain ⟨hw, ha⟩ := hdata hl
    exact ⟨hw, rfl, ha, rfl⟩
  | read | readExact =>
    obtain ⟨rfl, rfl⟩ := decodeArg_eq_ok.mp h
    exact ⟨rfl, rfl, rfl, rfl⟩
  | stat =>
    obtain ⟨k, hk, rfl, rfl⟩ := decodeStat_eq_ok.mp h
    exact ⟨rfl, rfl, by rw [Instr.arg, hk, BitVec.ofNat_toNat, BitVec.setWidth_eq], rfl⟩
  | beginRead | endRead | beginWrite | endWrite =>
    obtain ⟨rfl, rfl, rfl⟩ := decodePlain_eq_ok.mp h
    exact ⟨rfl, rfl, rfl, rfl⟩

/-- A transaction decodes when its opcode names a command, its reserved field is 0 and its operands decode. -/
theorem decode_eq_ok {t : Transaction} {i : Instr} :
    decode t = .ok i ↔ ∃ op, Opcode.ofNumber (opField t.cmd).toNat = some op ∧ resField t.cmd = 0 ∧
      decodeOperands op (argField t.cmd) t.din = .ok i := by
  unfold decode
  split
  · next hop => simp [hop]
  · next op hop =>
    simp only [hop, Option.some.injEq, exists_eq_left']
    split
    · next hres => rw [and_iff_right hres]
    · next hres => exact ⟨nofun, fun ⟨h, _⟩ => absurd h hres⟩

/-- A command word is put together from its fields. -/
theorem commandWord_of_fields {w : Word} {op : Opcode} (hop : op.number.toNat = (opField w).toNat)
    (hres : resField w = 0) : commandWord op (argField w) = w := by
  have hres' : w.toNat / 2 ^ 16 % 2 ^ 12 = 0 := by rw [← resField_toNat, hres]; rfl
  apply BitVec.eq_of_toNat_eq
  rw [commandWord_toNat, hop, opField_toNat, argField_toNat]
  omega

/-- Settles O2: the operands are those of the command, and the word is put together from its fields again. -/
theorem decodedTransactionIsItsCommandsEncoding : Obligations.DecodedTransactionIsItsCommandsEncoding := by
  rintro ⟨cmd, din⟩ i h
  obtain ⟨op, hop, hres, hoperands⟩ := decode_eq_ok.mp h
  obtain ⟨hw, rfl, harg, hdata⟩ := wf_of_decodeOperands hoperands
  refine ⟨hw, ?_⟩
  rw [encode, harg, hdata, commandWord_of_fields (number_of_ofNumber hop) hres]

/-- Settles O4: nine words to evaluate the decoder on. -/
theorem commandWordsOfTheSpecDecode : Obligations.CommandWordsOfTheSpecDecode := by
  unfold Obligations.CommandWordsOfTheSpecDecode
  decide

end Sys2Proof

namespace Sys2Proof.Machine

/-- Settles O5: the numbers are those of `Status.code`. -/
theorem statusCodesAreNumberedZeroToEight : Obligations.StatusCodesAreNumberedZeroToEight := rfl

/-! ## Malformed transactions -/

/-- No case of 30_encoding R56 covers the encoding of a well-formed command. -/
theorem not_malformed_encode {i : Instr} (h : i.wf = true) : ¬ MalformedTransaction (encode i) := by
  simp only [MalformedTransaction, ← opField_toNat, ← resField_toNat, ← argField_toNat, encode, opField_commandWord,
    resField_commandWord, argField_commandWord]
  cases i with
  | inject din | write din =>
    have hlen : (BitVec.ofNat 16 din.length).toNat = din.length := Laws.FixedBits.length_arg h
    simp [Instr.opcode, Opcode.number, Instr.arg, Instr.data, hlen]
  | stat k =>
    have hk := k.isLt
    simp [Instr.opcode, Opcode.number, Instr.arg, Instr.data]
    omega
  | read n | readExact n => simp [Instr.opcode, Opcode.number, Instr.data]
  | beginRead | endRead | beginWrite | endWrite => simp [Instr.opcode, Opcode.number, Instr.arg, Instr.data]

/-- The numbers 1 to 9 name the nine opcodes (30_encoding R52). -/
theorem exists_opcode {n : Nat} (hpos : 0 < n) (hlt : n < 10) : ∃ op, Opcode.ofNumber n = some op := by
  interval_cases n <;> exact ⟨_, rfl⟩

/-- A transaction that no case of 30_encoding R56 covers decodes. -/
theorem decode_of_not_malformed {t : Transaction} (h : ¬ MalformedTransaction t) : ∃ i, decode t = .ok i := by
  simp only [MalformedTransaction, ← opField_toNat, ← resField_toNat, ← argField_toNat, not_or, not_and, not_not,
    not_lt, not_le] at h
  obtain ⟨⟨hne, hlt⟩, hres, hplain, hstat, hdata, hnone⟩ := h
  obtain ⟨op, hop⟩ := exists_opcode (Nat.pos_of_ne_zero hne) hlt
  rw [← number_of_ofNumber hop] at hplain hstat hdata hnone
  suffices hoperands : ∃ i, decodeOperands op (argField t.cmd) t.din = .ok i by
    obtain ⟨i, hi⟩ := hoperands
    exact ⟨i, decode_eq_ok.mpr ⟨op, hop, BitVec.eq_of_toNat_eq hres, hi⟩⟩
  have harg0 : (argField t.cmd).toNat = 0 → argField t.cmd = 0 := fun h0 => BitVec.eq_of_toNat_eq h0
  cases op with
  | inject | write => exact ⟨_, decodeData_eq_ok.mpr ⟨hdata (by decide), rfl⟩⟩
  | read | readExact => exact ⟨_, decodeArg_eq_ok.mpr ⟨hnone (by decide) (by decide), rfl⟩⟩
  | stat =>
    exact ⟨_, decodeStat_eq_ok.mpr ⟨⟨_, Nat.lt_succ_of_le (hstat (by decide))⟩, rfl, hnone (by decide) (by decide), rfl⟩⟩
  | beginRead | endRead | beginWrite | endWrite =>
    exact ⟨_, decodePlain_eq_ok.mpr ⟨harg0 (hplain (by decide)), hnone (by decide) (by decide), rfl⟩⟩

theorem performCommand_of_decode_error {t : Transaction} {e : Malformed} (h : decode t = .error e) (s : State) :
    performCommand t s = .next (s.fail .illegalCommand) := by
  simp only [performCommand, h]

/-- Settles O3: a command decoded from a malformed transaction would be one whose encoding is malformed. -/
theorem malformedTransactionsOnlyAnswerIllegalCommand :
    Obligations.MalformedTransactionsOnlyAnswerIllegalCommand := by
  refine fun s t rest hhost => ⟨fun hmal => ?_, decode_of_not_malformed⟩
  cases hdec : decode t with
  | ok i =>
    obtain ⟨hw, rfl⟩ := decodedTransactionIsItsCommandsEncoding t i hdec
    exact absurd hmal (not_malformed_encode hw)
  | error e =>
    exact (step_of_host_cons hhost).trans (performCommand_of_decode_error hdec _)

end Sys2Proof.Machine
end

section
/-! PROOFS. The response of each command (30_encoding R54, R55; 60_exceptions R103), and that every command completes
from a legal state (R102, R107). -/

namespace Sys2Proof.Machine

variable {s t : State}

/-! ## Responses -/

/-- Outside a session `BEGIN_READ` answers as its verdict says. -/
theorem verdict_answers {r : ScanVerdict} {u d : Nat} (hr : r.Fits u d) (s : State) :
    ∃ a : Response, (r.apply s).responses = s.responses ++ [a] ∧ a.dout = [] ∧
      ((a.status = .ok ∧ a.value = (r.apply s).stageSize ∧ (r.apply s).rxState = .reading) ∨
        (a.value = 0 ∧ a.status ∈ [.notReady, .noFrame, .tooSmall, .badEncoding, .badCrc8, .tooBig])) := by
  cases r with
  | rejected n c x =>
    obtain ⟨-, hx⟩ := hr
    refine ⟨⟨x, 0, []⟩, rfl, rfl, .inr ⟨rfl, ?_⟩⟩
    simp only [rejections, List.mem_cons, Prod.mk.injEq, List.not_mem_nil, or_false] at hx
    obtain ⟨rfl, -⟩ | ⟨rfl, -⟩ | ⟨rfl, -⟩ | ⟨rfl, -⟩ := hx <;> decide
  | accepted n dlen => exact ⟨⟨.ok, word (dlen - 1), []⟩, rfl, rfl, .inl ⟨rfl, rfl, rfl⟩⟩
  | noFrame => exact ⟨⟨.noFrame, 0, []⟩, rfl, rfl, .inr ⟨rfl, by decide⟩⟩

/-- A copy hands out no more than was asked for, and answers nothing itself. -/
theorem copyOut_answers {u : State} {wanted : Nat} {bytes : List Byte} (h : s.copyOut wanted = .ok (bytes, u)) :
    bytes.length ≤ wanted ∧ u.responses = s.responses := by
  obtain ⟨-, hlen, -⟩ := copyOut_cases h
  have hframe := copyOut_frame h
  exact ⟨hlen.trans_le (Nat.min_le_left _ _), by rw [hframe]⟩

/-- `READ_EXACT` is short exactly when fewer bytes are handed out than asked for. -/
theorem readExact_status {bytes : List Byte} {n : Nat} (h : bytes.length ≤ n) :
    ((if bytes.length < n then Status.notEnough else .ok) = .ok ∧ bytes.length = n) ∨
      ((if bytes.length < n then Status.notEnough else .ok) = .notEnough ∧ bytes.length < n) := by
  by_cases hshort : bytes.length < n
  · exact .inr ⟨if_pos hshort, hshort⟩
  · exact .inl ⟨if_neg hshort, Nat.le_antisymm h (Nat.not_lt.mp hshort)⟩

/-- Settles O16, by cases of the command and of its session check. -/
theorem eachCommandAnswersInItsOwnForm : Obligations.EachCommandAnswersInItsOwnForm := by
  intro s t i h
  cases i with
  | inject din =>
    obtain ⟨r, n, hfold⟩ := foldl_ringAppend_frame din s
    rw [execInject_next h, hfold]
    exact ⟨_, rfl, rfl⟩
  | beginRead =>
    obtain ⟨-, rfl⟩ | ⟨-, k, v, r, -, hr, rfl⟩ := execBeginRead_cases h
    · exact ⟨_, rfl, rfl, .inr ⟨rfl, by decide⟩⟩
    · exact verdict_answers hr (s.scanned k 0 v)
  | read n =>
    obtain ⟨-, rfl⟩ | ⟨-, bytes, u, hcopy, rfl⟩ := execRead_next h
    · exact ⟨_, rfl, .inl rfl⟩
    · obtain ⟨hlen, hresp⟩ := copyOut_answers hcopy
      exact ⟨_, by rw [State.respond_responses, hresp], .inr ⟨rfl, rfl, hlen⟩⟩
  | readExact n =>
    obtain ⟨-, rfl⟩ | ⟨-, bytes, u, hcopy, rfl⟩ := execReadExact_next h
    · exact ⟨_, rfl, .inl rfl⟩
    · obtain ⟨hlen, hresp⟩ := copyOut_answers hcopy
      exact ⟨_, by rw [State.respond_responses, hresp], .inr ⟨rfl, readExact_status hlen⟩⟩
  | endRead =>
    obtain ⟨-, rfl⟩ | ⟨-, rem, -, rfl⟩ := execEndRead_next h
    · exact ⟨_, rfl, .inl rfl⟩
    · rw [discard_frame]
      exact ⟨_, rfl, .inr rfl⟩
  | beginWrite =>
    obtain ⟨-, rfl⟩ | ⟨-, rfl⟩ := execBeginWrite_next h
    · exact ⟨_, rfl, .inl rfl⟩
    · exact ⟨_, rfl, .inr rfl⟩
  | write din =>
    obtain ⟨-, rfl⟩ | ⟨-, rfl⟩ := execWrite_next h
    · exact ⟨_, rfl, .inl rfl⟩
    · rw [foldl_escWrite_eq]
      exact ⟨_, rfl, .inr rfl⟩
  | endWrite =>
    obtain ⟨-, rfl⟩ | ⟨-, rfl⟩ := execEndWrite_next h
    · exact ⟨_, rfl, .inl rfl⟩
    · rw [closeWire_eq]
      exact ⟨_, rfl, .inr rfl⟩
  | stat k => exact ⟨_, by rw [execStat_next h, State.respond_responses], rfl⟩

/-! ## Completion -/

theorem whenNotReading_completes {r : Result} (h : ∃ t, r = .next t) : ∃ t, whenNotReading s r = .next t := by
  cases hrx : s.rxState with
  | notReading => rwa [whenNotReading_pass r hrx]
  | reading => exact ⟨_, whenNotReading_stop r hrx⟩

theorem whenReading_completes {r : Result} (h : ∃ t, r = .next t) : ∃ t, whenReading s r = .next t := by
  cases hrx : s.rxState with
  | notReading => exact ⟨_, whenReading_stop r hrx⟩
  | reading => rwa [whenReading_pass r hrx]

theorem whenNotWriting_completes {r : Result} (h : ∃ t, r = .next t) : ∃ t, whenNotWriting s r = .next t := by
  cases htx : s.txState with
  | notWriting => rwa [whenNotWriting_pass r htx]
  | writing => exact ⟨_, whenNotWriting_stop r htx⟩

theorem whenWriting_completes {r : Result} (h : ∃ t, r = .next t) : ∃ t, whenWriting s r = .next t := by
  cases htx : s.txState with
  | notWriting => exact ⟨_, whenWriting_stop r htx⟩
  | writing => rwa [whenWriting_pass r htx]

/-- From a legal state every command gives a next state: the copies and `END_READ` find the cursor in the payload. -/
theorem exec_completes (h : s.Inv) (i : Instr) : ∃ t, exec i s = .next t := by
  have hcopy := fun n : BitVec 16 => copyOut_ok h.cursor_le h.stageSize_lt n.toNat
  cases i with
  | inject din => exact ⟨_, rfl⟩
  | beginRead => exact whenNotReading_completes ⟨_, rfl⟩
  | read n => exact whenReading_completes ⟨_, by rw [hcopy n]⟩
  | readExact n => exact whenReading_completes ⟨_, by rw [hcopy n]⟩
  | endRead => exact whenReading_completes ⟨_, by rw [payloadLeft_eq h.cursor_le]⟩
  | beginWrite => exact whenNotWriting_completes ⟨_, rfl⟩
  | write din => exact whenWriting_completes ⟨_, rfl⟩
  | endWrite => exact whenWriting_completes ⟨_, rfl⟩
  | stat k => exact ⟨_, rfl⟩

/-- Settles O12: the command completes, answers in its own form and writes neither configuration nor host stream. -/
theorem everyCommandCompletesWithOneResponse : Obligations.EveryCommandCompletesWithOneResponse := by
  intro s i h
  obtain ⟨t, ht⟩ := exec_completes h i
  obtain ⟨r, hr, -⟩ := eachCommandAnswersInItsOwnForm s t i ht
  obtain ⟨hcfg, hhost, -⟩ := exec_register_writers ht
  exact ⟨t, r, ht, hr, hcfg, hhost⟩

end Sys2Proof.Machine
end

section
/-! PROOFS. The wire format (30_encoding R46 to R48), and that `BEGIN_WRITE`, any `WRITE`s and `END_WRITE` put exactly
the frame of the joined payload on the sink (43_encode R82 to R85). -/

namespace Sys2Proof.Machine

variable {s t : State}

/-! ## The wire format -/

/-- A byte goes on the wire as one or two bytes (30_encoding R47). -/
theorem escByte_length (cfg : Config) (b : Byte) : 1 ≤ (escByte cfg b).length ∧ (escByte cfg b).length ≤ 2 := by
  unfold escByte
  split <;> simp

/-- No byte is escaped to the delimiter: an escape sequence ends in neither special byte (00_scope R10). -/
theorem delim_not_mem_escByte (cfg : Config) (b : Byte) : cfg.delim ∉ escByte cfg b := by
  obtain ⟨-, -, hDE, -⟩ := cfg.valid
  unfold escByte
  split
  · next hb =>
    obtain ⟨hD, -⟩ := escapedByteIsNeitherDelimiterNorEscape cfg b hb
    simp [hDE, hD.symm]
  · next hb => simpa using fun h : cfg.delim = b => hb (.inl h.symm)

theorem escBytes_append (cfg : Config) (p q : List Byte) : escBytes cfg (p ++ q) = escBytes cfg p ++ escBytes cfg q :=
  List.flatMap_append

theorem escBytes_length (cfg : Config) (p : List Byte) :
    p.length ≤ (escBytes cfg p).length ∧ (escBytes cfg p).length ≤ 2 * p.length := by
  induction p with
  | nil => simp [escBytes]
  | cons b bs ih =>
    have hcons : escBytes cfg (b :: bs) = escByte cfg b ++ escBytes cfg bs := rfl
    have hb := escByte_length cfg b
    rw [hcons, List.length_append, List.length_cons]
    omega

theorem delim_not_mem_escBytes (cfg : Config) (p : List Byte) : cfg.delim ∉ escBytes cfg p := by
  intro h
  obtain ⟨b, -, hb⟩ := List.mem_flatMap.mp h
  exact delim_not_mem_escByte cfg b hb

/-- Two delimiters, the escaped payload and the escaped check byte. -/
theorem wireFrame_length (cfg : Config) (p : List Byte) :
    (wireFrame cfg p).length = 2 + (escBytes cfg p).length + (escByte cfg (crc8 p)).length := by
  simp only [wireFrame, List.length_append, List.length_singleton]
  omega

/-- Settles O37: the sizes of the frame's parts, and that no escaped byte holds the delimiter. -/
theorem wireFrameSizeAndDelimiters : Obligations.WireFrameSizeAndDelimiters := by
  intro cfg p
  have hp := escBytes_length cfg p
  have hc := escByte_length cfg (crc8 p)
  have hlen := wireFrame_length cfg p
  refine ⟨?_, by omega, by omega, escBytes cfg p ++ escByte cfg (crc8 p), by simp [wireFrame], ?_⟩
  · rw [hlen, escBytes, List.length_flatMap]
  · simp [delim_not_mem_escBytes, delim_not_mem_escByte]

/-! ## The write commands in their sessions -/

/-- A count that stays within 32 bits is the sum in both modes (45_statistics R96). -/
theorem addCounting_of_le (m : CounterMode) {x : Word} {a : Nat} (h : x.toNat + a ≤ 4294967295) :
    addCounting m x a = word (x.toNat + a) := by
  cases m with
  | wrap => rw [addCounting, Nat.mod_eq_of_lt (Nat.lt_succ_of_le h)]
  | saturate => rw [addCounting, Nat.min_eq_left h]

/-- A checksum followed by itself is 0, since `T[0] = 0` (44_checksum R88). -/
theorem crcUpdate_self (c : Byte) : crcUpdate c c = 0 := by
  rw [crcUpdate, BitVec.xor_self]
  decide

/-- `BEGIN_WRITE` with no frame open (43_encode R82). -/
theorem exec_beginWrite_of_notWriting (h : s.txState = .notWriting) : exec .beginWrite s = .next { s with
    txCrc := 0, txSize := 1, txState := .writing, sink := s.sink ++ [s.cfg.delim],
    responses := s.responses ++ [⟨.ok, 0, []⟩] } :=
  whenNotWriting_pass _ h

/-- `WRITE` in an open frame (43_encode R83). -/
theorem exec_write_of_writing (h : s.txState = .writing) (din : List Byte) : exec (.write din) s = .next { s with
    txCrc := crcFrom s.txCrc din,
    txSize := addCounting s.cfg.counterMode s.txSize (escBytes s.cfg din).length,
    sink := s.sink ++ escBytes s.cfg din,
    stats := { s.stats with writeByteCount := addCounting s.cfg.counterMode s.stats.writeByteCount din.length },
    responses := s.responses ++ [⟨.ok, 0, []⟩] } := by
  rw [exec, execWrite, whenWriting_pass _ h, foldl_escWrite_eq]
  rfl

/-- `END_WRITE` in an open frame, with the frame's on-wire size (43_encode R84). -/
theorem exec_endWrite_of_writing (h : s.txState = .writing) {size : Word}
    (hsize : addCounting s.cfg.counterMode s.txSize ((escByte s.cfg s.txCrc).length + 1) = size) :
    exec .endWrite s = .next { s with
      txCrc := 0, txSize := size, txState := .notWriting,
      sink := s.sink ++ escByte s.cfg s.txCrc ++ [s.cfg.delim],
      stats := { s.stats with
        writeByteCount := addCounting s.cfg.counterMode s.stats.writeByteCount 1,
        writeFrameCount := addCounting s.cfg.counterMode s.stats.writeFrameCount 1,
        writeFrameMinSize := if size < s.stats.writeFrameMinSize then size else s.stats.writeFrameMinSize,
        writeFrameMaxSize := if s.stats.writeFrameMaxSize < size then size else s.stats.writeFrameMaxSize },
      responses := s.responses ++ [⟨.ok, 0, []⟩] } := by
  rw [exec, execEndWrite, whenWriting_pass _ h, closeWire_eq, hsize, crcUpdate_self]
  rfl

/-! ## Sequences of commands -/

/-- A sequence goes on from the state its first command leads to. -/
theorem execAll_cons {i : Instr} (h : exec i s = .next t) (is : List Instr) : execAll (i :: is) s = execAll is t := by
  simp only [execAll, h]

/-- A sequence goes on from the state its first part leads to. -/
theorem execAll_append {is : List Instr} (h : execAll is s = .next t) (js : List Instr) :
    execAll (is ++ js) s = execAll js t := by
  induction is generalizing s with
  | nil => cases h; rfl
  | cons i is ih =>
    simp only [execAll, List.cons_append] at h ⊢
    split at h
    · exact ih h
    · cases h
    · cases h

/-- Any number of `WRITE`s in an open frame do what one `WRITE` of the joined data does, but for the number of
responses. -/
theorem execAll_writes (h : s.txState = .writing) (parts : List (List Byte)) :
    execAll (parts.map Instr.write) s = .next { s with
      txCrc := crcFrom s.txCrc parts.flatten,
      txSize := addCounting s.cfg.counterMode s.txSize (escBytes s.cfg parts.flatten).length,
      sink := s.sink ++ escBytes s.cfg parts.flatten,
      stats := { s.stats with
        writeByteCount := addCounting s.cfg.counterMode s.stats.writeByteCount parts.flatten.length },
      responses := s.responses ++ List.replicate parts.length ⟨.ok, 0, []⟩ } := by
  induction parts generalizing s with
  | nil => simp [execAll, crcFrom, escBytes]
  | cons din parts ih =>
    rw [List.map_cons, execAll_cons (exec_write_of_writing h din), ih (by exact h)]
    simp [crcFrom, escBytes_append, addCounting_addCounting, List.replicate_succ]

/-- Settles O35: one delimiter, the escaped payload, the escaped check byte and one delimiter, and a size that counts
them all. -/
theorem encoderEmitsExactlyTheWireFrame : Obligations.EncoderEmitsExactlyTheWireFrame := by
  intro s parts h
  rw [execAll_cons (exec_beginWrite_of_notWriting h), execAll_append (execAll_writes (by rfl) parts),
    execAll_cons (exec_endWrite_of_writing (by rfl) rfl)]
  refine ⟨_, rfl, ?_, rfl, fun hlen => ?_⟩
  · simp [wireFrame, crc8]
  · have hframe := wireFrame_length s.cfg parts.flatten
    have hsize : addCounting s.cfg.counterMode
        (addCounting s.cfg.counterMode 1 (escBytes s.cfg parts.flatten).length)
        ((escByte s.cfg (crc8 parts.flatten)).length + 1) = word (wireFrame s.cfg parts.flatten).length := by
      have hone : (1 : Word).toNat = 1 := rfl
      rw [addCounting_addCounting, addCounting_of_le _ (by omega), hone]
      congr 1
      omega
    exact ⟨by rw [← hsize]; rfl, by rw [← hsize]; rfl⟩

end Sys2Proof.Machine
end

section
/-! PROOFS. `INJECT` in full (41_ingest R60): which cells of the ring it writes and with which bytes, and that its data,
as that of `WRITE`, may be split over two commands (30_encoding R53). -/

namespace Sys2Proof.Machine

/-! ## Writing around the ring -/

/-- Write a byte sequence to consecutive cells of a ring of `cap` cells, from index `i mod cap` on (20_memory R33). -/
def Memory.writeRing (cap : Nat) : Memory → Nat → List Byte → Memory
  | m, _, [] => m
  | m, i, b :: bs => Memory.writeRing cap (Memory.write m (i % cap) b) (i + 1) bs

/-- Cells the stretch does not reach keep their bytes. -/
theorem Memory.read_writeRing_other {cap a : Nat} {m : Memory} {i : Nat} {bs : List Byte}
    (h : ∀ j, j < bs.length → a ≠ (i + j) % cap) :
    Memory.read (Memory.writeRing cap m i bs) a = Memory.read m a := by
  induction bs generalizing m i with
  | nil => rfl
  | cons b bs ih =>
    have hhead : a ≠ i % cap := h 0 (Nat.zero_lt_succ _)
    have htail : ∀ j, j < bs.length → a ≠ (i + 1 + j) % cap := fun j hj => by
      rw [Nat.add_assoc, Nat.add_comm 1 j]
      exact h (j + 1) (Nat.succ_lt_succ hj)
    rw [Memory.writeRing, ih htail, Memory.read_write_other hhead]

/-- A stretch no longer than the ring wraps onto none of its own cells, and they hold the bytes written. -/
theorem Memory.read_writeRing {cap : Nat} {m : Memory} (hm : m.wf = true) {i j : Nat} {bs : List Byte}
    (hcap : bs.length ≤ cap) (hj : j < bs.length) :
    Memory.read (Memory.writeRing cap m i bs) ((i + j) % cap) = bs[j] := by
  induction bs generalizing m i j with
  | nil => exact absurd hj (Nat.not_lt_zero j)
  | cons b bs ih =>
    rw [List.length_cons] at hcap hj
    rw [Memory.writeRing]
    cases j with
    | zero =>
      have hfresh : ∀ j, j < bs.length → (i + 0) % cap ≠ (i + 1 + j) % cap := fun j hj heq => by
        rw [Nat.add_assoc] at heq
        have hmod : 0 ≡ 1 + j [MOD cap] := Nat.ModEq.add_left_cancel' i heq
        have := hmod.eq_of_lt_of_lt (by omega) (by omega)
        omega
      rw [Memory.read_writeRing_other hfresh]
      exact Memory.read_write_same hm _ b
    | succ j =>
      have htail := ih (Memory.write_wf hm (i % cap) b) (i := i + 1) (j := j) (by omega) (by omega)
      rwa [Nat.add_assoc, Nat.add_comm 1 j] at htail

/-! ## INJECT -/

variable {s : State}

/-- A byte sequence goes to the cells from the head index on as far as it fits; the rest is dropped. -/
theorem foldl_ringAppend_eq (din : List Byte) (s : State) : din.foldl State.ringAppend s = { s with
    ring := Memory.writeRing s.cfg.ringCap s.ring (s.tail.toNat + s.unread.toNat)
      (din.take (s.cfg.ringCap - s.unread.toNat))
    unread := word (s.unread.toNat + min din.length (s.cfg.ringCap - s.unread.toNat)) } := by
  induction din generalizing s with
  | nil => simp [Memory.writeRing]
  | cons b bs ih =>
    rw [List.foldl_cons]
    by_cases hroom : s.unread.toNat < s.cfg.ringCap
    · have hunread : (word (s.unread.toNat + 1)).toNat = s.unread.toNat + 1 :=
        word_toNat (Nat.lt_of_le_of_lt hroom (ringCap_lt _))
      obtain ⟨left, hleft⟩ : ∃ left, s.cfg.ringCap - s.unread.toNat = left + 1 :=
        Nat.exists_eq_succ_of_ne_zero (Nat.sub_ne_zero_of_lt hroom)
      have hless : s.cfg.ringCap - (s.unread.toNat + 1) = left := by omega
      rw [ringAppend_room b hroom, ih]
      simp only [hunread, hleft, hless, List.take_succ_cons, Memory.writeRing, List.length_cons, Nat.add_min_add_right,
        State.advance, Nat.add_assoc, Nat.add_comm 1]
    · have hfull : s.cfg.ringCap - s.unread.toNat = 0 := Nat.sub_eq_zero_of_le (Nat.not_lt.mp hroom)
      rw [ringAppend_full b (Nat.not_lt.mp hroom), ih]
      simp [hfull]

/-- `INJECT` in any state (41_ingest R60). -/
theorem exec_inject (din : List Byte) (s : State) : exec (.inject din) s = .next { s with
    ring := Memory.writeRing s.cfg.ringCap s.ring (s.tail.toNat + s.unread.toNat)
      (din.take (s.cfg.ringCap - s.unread.toNat))
    unread := word (s.unread.toNat + min din.length (s.cfg.ringCap - s.unread.toNat))
    responses := s.responses ++ [⟨.ok, 0, []⟩] } := by
  rw [exec, execInject, foldl_ringAppend_eq]
  rfl

/-- A full ring drops all of a byte sequence. -/
theorem exec_inject_full (h : s.unread.toNat = s.cfg.ringCap) (din : List Byte) :
    exec (.inject din) s = .next { s with responses := s.responses ++ [⟨.ok, 0, []⟩] } := by
  rw [exec_inject, Nat.sub_eq_zero_of_le h.ge, Nat.min_zero, Nat.add_zero, word_of_toNat]
  rfl

/-- The command word of `INJECT`: the row's fixed bits, and the length of the data in `ARG`. -/
theorem encode_inject {din : List Byte} (h : din.length ≤ 65535) :
    encode (.inject din) = ⟨0x10000000 + word din.length, din⟩ := by
  have hcmd : commandWord (Instr.inject din).opcode (Instr.inject din).arg = 0x10000000 + word din.length := by
    apply BitVec.eq_of_toNat_eq
    have hop : (Instr.inject din).opcode.number.toNat = 1 := rfl
    have hrow : (0x10000000 : Word).toNat = 0x10000000 := by decide
    have harg : (Instr.inject din).arg.toNat = din.length := Laws.FixedBits.length_arg (decide_eq_true h)
    rw [commandWord_toNat, BitVec.toNat_add, word_toNat (by omega), hop, hrow, harg]
    omega
  rw [encode, hcmd]
  rfl

/-- Settles O19: the data that fits is written around the ring from the head index on. -/
theorem injectAppendsWhatFitsAndDropsTheRest : Obligations.InjectAppendsWhatFitsAndDropsTheRest := by
  refine fun s din => ⟨encode_inject, fun hwf => ⟨_, exec_inject din s, fun j hj hfit => ?_, fun a ha => ?_⟩⟩
  · have hlen : (din.take (s.cfg.ringCap - s.unread.toNat)).length ≤ s.cfg.ringCap :=
      (List.length_take_le _ _).trans (Nat.sub_le _ _)
    rw [Memory.read_writeRing hwf hlen (by rw [List.length_take]; omega), List.getElem_take]
  · exact Memory.read_writeRing_other fun j hj => ha j (by rw [List.length_take] at hj; omega)

/-! ## Data split over two commands -/

/-- The ingestor does not look at the responses. -/
theorem foldl_ringAppend_respond (din : List Byte) (s : State) (x : Status) (v : Word) (d : List Byte) :
    din.foldl State.ringAppend (s.respond x v d) = (din.foldl State.ringAppend s).respond x v d := by
  rw [foldl_ringAppend_eq, foldl_ringAppend_eq]
  rfl

theorem foldl_ringAppend_responses (din : List Byte) (s : State) :
    (din.foldl State.ringAppend s).responses = s.responses := by
  rw [foldl_ringAppend_eq]

/-- Settles O21: appending goes on where it stopped, and so does the encoder's write path. -/
theorem splittingTheDataHasTheSameEffect : Obligations.SplittingTheDataHasTheSameEffect := by
  refine fun s a b => ⟨?_, fun htx => ?_⟩
  · refine ⟨_, rfl, ?_⟩
    rw [foldl_ringAppend_respond, ← List.foldl_append, exec, execInject, State.respond, foldl_ringAppend_responses]
    rfl
  · refine ⟨_, execAll_writes htx [a, b], ?_⟩
    rw [exec_write_of_writing htx]
    simp

end Sys2Proof.Machine
end

section
/-! PROOFS. A full ring without a complete frame is wedged (70_reset R124): `BEGIN_READ` finds nothing to consume and
`INJECT` finds no room, and no other command writes what the two look at. -/

namespace Sys2Proof.Machine

variable {s t u : State} {i : Instr}

/-! ## The stray bytes a scan counts -/

/-- After the first delimiter a byte writes no counter. -/
theorem scanByte_opened {w : Scan} (hl : w.limitCount ≠ 0) (b : Byte) (s : State) :
    (∃ w' s', scanByte b w s = .more w' s' ∧ w'.limitCount ≠ 0 ∧ s'.stats = s.stats) ∨
      ∃ e w' s', scanByte b w s = .stop e w' s' ∧ s'.stats = s.stats := by
  unfold scanByte scanContent scanStore
  simp only [hl, if_false]
  split_ifs <;> simp [hl]

/-- After the first delimiter a scan writes no counter. -/
theorem scanBytes_opened_stats {w : Scan} (hl : w.limitCount ≠ 0) (bs : List Byte) (s : State) :
    (scanBytes bs w s).2.2.stats = s.stats := by
  induction bs generalizing w s with
  | nil => rfl
  | cons b bs ih =>
    rw [scanBytes]
    obtain ⟨w', s', hstep, hl', hstats⟩ | ⟨e, w', s', hstep, hstats⟩ := scanByte_opened hl b s
    · simp only [hstep]
      rw [ih hl', hstats]
    · simp only [hstep]
      exact hstats

theorem scanBytes_opening_stats {b : Byte} {w : Scan} {s : State} (hb : b = s.cfg.delim) (hl : w.limitCount = 0)
    (rest : List Byte) : (scanBytes (b :: rest) w s).2.2.stats = s.stats := by
  rw [hb, scanBytes_opening rest hl, scanBytes_opened_stats one_ne_zero]

/-- A scan counts the bytes before the first delimiter, however it ends (42_decode R66). -/
theorem scanBytes_rxFalseStarts (bs : List Byte) (s : State) :
    (scanBytes bs {} s).2.2.stats.rxFalseStarts =
      addCounting s.cfg.counterMode s.stats.rxFalseStarts (bs.takeWhile (· ≠ s.cfg.delim)).length := by
  have hstray : s.cfg.delim ∉ bs.takeWhile (· ≠ s.cfg.delim) := fun hmem => by
    simpa using List.mem_takeWhile_imp hmem
  have hscan := scanBytes_strays (bs.dropWhile (· ≠ s.cfg.delim)) (w := {}) (s := s) rfl hstray
  rw [List.takeWhile_append_dropWhile] at hscan
  rw [hscan]
  cases hrest : bs.dropWhile (· ≠ s.cfg.delim) with
  | nil => rfl
  | cons b rest =>
    have hdelim : b = s.cfg.delim := by
      have hhead := List.head?_dropWhile_not (· ≠ s.cfg.delim) bs
      rw [hrest] at hhead
      simpa using hhead
    rw [scanBytes_opening_stats (by exact hdelim) (by rfl)]
    rfl

/-- What follows a scan leaves the stray bytes counted as they are. -/
theorem finishScan_rxFalseStarts (t0 u0 : Word) (r : ScanEnd × Scan × State) :
    (finishScan t0 u0 r).stats.rxFalseStarts = r.2.2.stats.rxFalseStarts := by
  obtain ⟨e, w, s⟩ := r
  cases e with
  | frameEnd =>
    simp only [finishScan, closeFrame]
    split_ifs <;> rfl
  | tooBig => rfl
  | exhausted => rfl

/-- `BEGIN_READ` outside a session counts the stray bytes, whatever it answers. -/
theorem execBeginRead_rxFalseStarts (h : exec .beginRead s = .next t) (hrx : s.rxState = .notReading) :
    t.stats.rxFalseStarts = addCounting s.cfg.counterMode s.stats.rxFalseStarts (strayCount s) := by
  obtain ⟨hreading, -⟩ | ⟨-, rfl⟩ := execBeginRead_next h
  · exact absurd (hrx.symm.trans hreading) (by decide)
  · rw [finishScan_rxFalseStarts, scanBytes_rxFalseStarts]
    rfl

/-! ## The wedge -/

/-- What keeps a block wedged: the ring is as full as in `s`, and no session is open. -/
structure State.SameRing (s t : State) : Prop where
  cfg : t.cfg = s.cfg
  ring : t.ring = s.ring
  tail : t.tail = s.tail
  unread : t.unread = s.unread
  rxState : t.rxState = s.rxState

namespace State.SameRing

theorem refl (s : State) : s.SameRing s := ⟨rfl, rfl, rfl, rfl, rfl⟩

theorem trans (h : s.SameRing t) (h' : t.SameRing u) : s.SameRing u where
  cfg := h'.cfg.trans h.cfg
  ring := h'.ring.trans h.ring
  tail := h'.tail.trans h.tail
  unread := h'.unread.trans h.unread
  rxState := h'.rxState.trans h.rxState

theorem unreadBytes (h : s.SameRing t) : t.unreadBytes = s.unreadBytes :=
  unreadBytes_congr h.ring h.tail h.unread h.cfg

theorem strayCount (h : s.SameRing t) : strayCount t = strayCount s := by
  rw [Machine.strayCount, Machine.strayCount, h.unreadBytes, h.cfg]

end State.SameRing

/-- A verdict that answers `NoFrame` is the one that no frame is complete: no rejection has this status. -/
theorem verdict_noFrame {r : ScanVerdict} {n d : Nat} (hr : r.Fits n d)
    (h : (r.apply s).responses = s.responses ++ [⟨.noFrame, 0, []⟩]) : r = .noFrame := by
  cases r with
  | rejected n c x =>
    obtain ⟨-, hx⟩ := hr
    obtain rfl : x = .noFrame := by simpa [ScanVerdict.apply] using h
    simp [rejections] at hx
  | accepted n dlen => simp [ScanVerdict.apply, acceptFrame] at h
  | noFrame => rfl

/-- Where `BEGIN_READ` answers `NoFrame`, no session is open, and with this ring it always does, and leaves the ring. -/
theorem execBeginRead_noFrame (h : exec .beginRead s = .next u)
    (hresp : u.responses = s.responses ++ [⟨.noFrame, 0, []⟩]) :
    s.rxState = .notReading ∧ ∀ t, s.SameRing t → ∃ u', exec .beginRead t = .next u' ∧ s.SameRing u' ∧
      u'.responses = t.responses ++ [⟨.noFrame, 0, []⟩] := by
  obtain ⟨-, rfl⟩ | ⟨hrx, -⟩ := execBeginRead_next h
  · simp at hresp
  obtain ⟨k, v, r, -, hr, hexec⟩ := execBeginRead_verdict s.cfg s.unreadBytes
  rw [hexec s rfl rfl hrx] at h
  cases h
  obtain rfl := verdict_noFrame (s := s.scanned k 0 v) hr hresp
  exact ⟨hrx, fun t ht => ⟨_, hexec t ht.cfg ht.unreadBytes (ht.rxState.trans hrx),
    ⟨ht.cfg, ht.ring, ht.tail, ht.unread, ht.rxState⟩, rfl⟩⟩

/-- Outside a session only `BEGIN_READ` and `INJECT` change the ring, and only `BEGIN_READ` opens one. -/
theorem sameRing_of_exec (h : exec i s = .next t) (hrx : s.rxState = .notReading) (hbegin : i ≠ .beginRead)
    (hinject : ∀ din, i ≠ .inject din) : s.SameRing t := by
  obtain ⟨hcfg, -, hring, htail, hunread, -⟩ := exec_register_writers h
  have hclosed : t.rxState = s.rxState := by
    cases ht : t.rxState with
    | notReading => exact hrx.symm
    | reading => exact absurd (beginRead_of_rxState_opens h hrx ht) hbegin
  exact ⟨hcfg, hring hinject, (htail hbegin).1, hunread hbegin hinject, hclosed⟩

/-- The ring is full and `BEGIN_READ` answers `NoFrame`. -/
structure State.Wedged (s : State) : Prop where
  full : s.unread.toNat = s.cfg.ringCap
  noFrame : ∃ u, exec .beginRead s = .next u ∧ u.responses = s.responses ++ [⟨.noFrame, 0, []⟩]

namespace State.Wedged

/-- On the ring of a wedged block `INJECT` finds no room. -/
theorem inject (h : s.Wedged) (ht : s.SameRing t) (din : List Byte) :
    exec (.inject din) t = .next { t with responses := t.responses ++ [⟨.ok, 0, []⟩] } :=
  exec_inject_full (by rw [ht.unread, ht.cfg, h.full]) din

/-- Every command leaves the ring of a wedged block as it was. -/
theorem keeps_ring (h : s.Wedged) (ht : s.SameRing t) (hexec : exec i t = .next u) : s.SameRing u := by
  obtain ⟨s₁, hs₁, hresp⟩ := h.noFrame
  obtain ⟨hrx, hpoll⟩ := execBeginRead_noFrame hs₁ hresp
  by_cases hbegin : i = .beginRead
  · subst hbegin
    obtain ⟨u', hu', hkept, -⟩ := hpoll t ht
    cases hu'.symm.trans hexec
    exact hkept
  by_cases hinject : ∃ din, i = .inject din
  · obtain ⟨din, rfl⟩ := hinject
    cases (h.inject ht din).symm.trans hexec
    exact ⟨ht.cfg, ht.ring, ht.tail, ht.unread, ht.rxState⟩
  · exact ht.trans (sameRing_of_exec hexec (ht.rxState.trans hrx) hbegin (not_exists.mp hinject))

end State.Wedged

/-- What every command keeps, every sequence of commands keeps. -/
theorem execAll_keeps {P : State → Prop} (hexec : ∀ {i a b}, P a → exec i a = .next b → P b) {is : List Instr}
    (hs : P s) (h : execAll is s = .next t) : P t := by
  induction is generalizing s with
  | nil => cases h; exact hs
  | cons i is ih =>
    rw [execAll] at h
    split at h
    · exact ih (hexec hs ‹_›) h
    · cases h
    · cases h

/-- Settles O27: the ring of the wedged block is kept by every command, and `BEGIN_READ` and `INJECT` look at nothing
else. -/
theorem fullRingWithoutFrameIsWedged : Obligations.FullRingWithoutFrameIsWedged := by
  intro s t s₁ is hfull hs₁ hresp hall
  have hwedged : s.Wedged := ⟨hfull, s₁, hs₁, hresp⟩
  have ht : s.SameRing t := execAll_keeps hwedged.keeps_ring (.refl s) hall
  obtain ⟨hrx, hpoll⟩ := execBeginRead_noFrame hs₁ hresp
  obtain ⟨u, hu, -, hnoFrame⟩ := hpoll t ht
  refine ⟨ht.ring, ht.tail, ht.unread, ⟨u, hu, hnoFrame, ?_⟩, hwedged.inject ht⟩
  rw [execBeginRead_rxFalseStarts hu (ht.rxState.trans hrx), ht.cfg, ht.strayCount]

end Sys2Proof.Machine
end

section
/-! PROOFS. The receive side and the transmit side are independent (20_memory R45): a command writes its own side only,
and what it does there and answers depends on its own side only. -/

namespace Sys2Proof.Machine

variable {s t u : State} {i : Instr}

/-! ## What a command leaves of the other side -/

theorem isReceiveCommand_of_isTransmitCommand (hi : isTransmitCommand i = true) : isReceiveCommand i = false := by
  cases i with
  | beginWrite | write | endWrite => rfl
  | inject | beginRead | read | readExact | endRead | stat => cases hi

/-- A counter is on the side of the commands that write it (45_statistics R95). -/
theorem Counter.onReceiveSide_of_writtenBy {c : Counter} (h : c.WrittenBy i) :
    c.onReceiveSide = isReceiveCommand i := by
  cases c with
  | readOverreach => obtain ⟨n, rfl⟩ | ⟨n, rfl⟩ := h <;> rfl
  | readByteCount => obtain ⟨n, rfl⟩ | ⟨n, rfl⟩ | rfl := h <;> rfl
  | writeByteCount => obtain ⟨d, rfl⟩ | rfl := h <;> rfl
  | _ => cases h; rfl

/-- A command writes the counters of its own side only. -/
theorem get_of_exec {c : Counter} (h : exec i s = .next t) (hc : c.onReceiveSide ≠ isReceiveCommand i) :
    s.stats.get c = t.stats.get c :=
  (exec_counter h fun hw => hc (Counter.onReceiveSide_of_writtenBy hw)).symm

theorem sameTransmit_of_exec (h : exec i s = .next t) (hi : isReceiveCommand i = true) :
    s.SameTransmit t ∧ t.sink = s.sink := by
  have hbegin : i ≠ .beginWrite := by rintro rfl; cases hi
  have hwrite : ∀ din, i ≠ .write din := by rintro din rfl; cases hi
  have hend : i ≠ .endWrite := by rintro rfl; cases hi
  obtain ⟨hcfg, -, -, -, -, -, -, htx, hencoder⟩ := exec_register_writers h
  obtain ⟨hcrc, hsize, hsink⟩ := hencoder hbegin hend hwrite
  exact ⟨⟨hcfg.symm, (htx hbegin hend).symm, hcrc.symm, hsize.symm,
    fun c hc => get_of_exec h (by rw [hc, hi]; decide)⟩, hsink⟩

theorem sameReceive_of_exec (h : exec i s = .next t) (hi : isTransmitCommand i = true) : s.SameReceive t := by
  have hinject : ∀ din, i ≠ .inject din := by rintro din rfl; cases hi
  have hbegin : i ≠ .beginRead := by rintro rfl; cases hi
  have hread : ∀ n, i ≠ .read n := by rintro n rfl; cases hi
  have hexact : ∀ n, i ≠ .readExact n := by rintro n rfl; cases hi
  have hend : i ≠ .endRead := by rintro rfl; cases hi
  obtain ⟨hcfg, -, hring, hstaged, hunread, hcursor, hrx, -⟩ := exec_register_writers h
  obtain ⟨htail, hstage, hsize⟩ := hstaged hbegin
  exact ⟨hcfg.symm, (hring hinject).symm, htail.symm, (hunread hbegin hinject).symm, hstage.symm, hsize.symm,
    (hcursor hbegin hread hexact).symm, (hrx hbegin hend).symm,
    fun c hc => get_of_exec h (by rw [hc, isReceiveCommand_of_isTransmitCommand hi]; decide)⟩

/-! ## Counters of one side -/

/-- The counters of one side agree. -/
def Stats.AgreeOn (side : Bool) (x y : Stats) : Prop := ∀ c : Counter, c.onReceiveSide = side → x.get c = y.get c

/-- The same value in the same counter. -/
theorem Stats.AgreeOn.set {side : Bool} {x y : Stats} (h : x.AgreeOn side y) (c : Counter) (v : Word) :
    (x.set c v).AgreeOn side (y.set c v) := by
  intro d hd
  rw [Stats.get_set, Stats.get_set, h d hd]

/-! ## The receive commands -/

namespace State.SameReceive

theorem withStats (h : s.SameReceive u) {x y : Stats} (hxy : x.AgreeOn true y) :
    { s with stats := x }.SameReceive { u with stats := y } := by
  obtain ⟨hcfg, hring, htail, hunread, hstage, hsize, hcursor, hrx, -⟩ := h
  exact ⟨hcfg, hring, htail, hunread, hstage, hsize, hcursor, hrx, hxy⟩

theorem agreeOn (h : s.SameReceive u) : s.stats.AgreeOn true u.stats := by
  obtain ⟨-, -, -, -, -, -, -, -, hstats⟩ := h
  exact hstats

theorem count (h : s.SameReceive u) {c : Counter} (hc : c.onReceiveSide = true) (a : Nat) :
    (s.count c a).SameReceive (u.count c a) := by
  have ⟨hcfg, _⟩ := h
  refine h.withStats ?_
  rw [hcfg, h.agreeOn c hc]
  exact h.agreeOn.set c _

theorem lower (h : s.SameReceive u) {c : Counter} (hc : c.onReceiveSide = true) (v : Word) :
    (s.lower c v).SameReceive (u.lower c v) := by
  refine h.withStats ?_
  rw [h.agreeOn c hc]
  exact h.agreeOn.set c _

theorem raise (h : s.SameReceive u) {c : Counter} (hc : c.onReceiveSide = true) (v : Word) :
    (s.raise c v).SameReceive (u.raise c v) := by
  refine h.withStats ?_
  rw [h.agreeOn c hc]
  exact h.agreeOn.set c _

theorem unreadBytes (h : s.SameReceive u) : u.unreadBytes = s.unreadBytes := by
  obtain ⟨hcfg, hring, htail, hunread, -⟩ := h
  exact unreadBytes_congr hring.symm htail.symm hunread.symm hcfg.symm

theorem scanned (h : s.SameReceive u) (k : Nat) (v : List Byte) : (s.scanned k 0 v).SameReceive (u.scanned k 0 v) := by
  obtain ⟨hcfg, hring, htail, hunread, hstage, hsize, hcursor, hrx, hstats⟩ := h.count (c := .rxFalseStarts) rfl k
  exact ⟨hcfg, hring, htail, hunread, congrArg (Memory.writeAll · 0 v) hstage, hsize, hcursor, hrx, hstats⟩

theorem consume (h : s.SameReceive u) (n : Nat) : (s.consume n).SameReceive (u.consume n) := by
  obtain ⟨hcfg, hring, htail, hunread, hrest⟩ := h
  exact ⟨hcfg, hring, by simp [State.advance, hcfg, htail], by simp [hunread], hrest⟩

theorem acceptFrame (h : s.SameReceive u) (dlen : Nat) : (acceptFrame dlen s).SameReceive (acceptFrame dlen u) := by
  obtain ⟨hcfg, hring, htail, hunread, hstage, -, -, -, hstats⟩ :=
    ((h.lower (c := .minRxFrameSize) rfl (word (dlen - 1))).raise (c := .maxRxFrameSize) rfl (word (dlen - 1))).count
      (c := .rxFrameCount) rfl 1
  exact ⟨hcfg, hring, htail, hunread, hstage, rfl, rfl, rfl, hstats⟩

/-- The same verdict gives the same answer. -/
theorem verdict (h : s.SameReceive u) {r : ScanVerdict} {n d : Nat} (hr : r.Fits n d) :
    (r.apply s).SameReceive (r.apply u) ∧
      ∃ a, (r.apply s).responses = s.responses ++ [a] ∧ (r.apply u).responses = u.responses ++ [a] := by
  cases r with
  | rejected n c x =>
    obtain ⟨-, hx⟩ := hr
    exact ⟨(h.consume n).count (Counter.onReceiveSide_of_writtenBy (rejections_writtenBy hx)) 1, _, rfl, rfl⟩
  | accepted n dlen => exact ⟨(h.consume n).acceptFrame dlen, _, rfl, rfl⟩
  | noFrame => exact ⟨h, _, rfl, rfl⟩

theorem afterCopy (h : s.SameReceive u) (k wanted : Nat) :
    (s.afterCopy k wanted).SameReceive (u.afterCopy k wanted) := by
  obtain ⟨hcfg, hring, htail, hunread, hstage, hsize, hcursor, hrest⟩ := h
  have hmoved : { s with cursor := word (s.cursor.toNat + k) }.SameReceive
      { u with cursor := word (u.cursor.toNat + k) } :=
    ⟨hcfg, hring, htail, hunread, hstage, hsize, by rw [hcursor], hrest⟩
  have hcounted := hmoved.count (c := .readByteCount) rfl k
  unfold State.afterCopy
  dsimp only
  split
  · exact hcounted.count rfl 1
  · exact hcounted

theorem payloadLeft (h : s.SameReceive u) : u.payloadLeft = s.payloadLeft := by
  obtain ⟨-, -, -, -, -, hsize, hcursor, -⟩ := h
  rw [State.payloadLeft, State.payloadLeft, hsize, hcursor]

theorem stagedBytes (h : s.SameReceive u) (k : Nat) : u.stagedBytes k = s.stagedBytes k := by
  obtain ⟨hcfg, -, -, -, hstage, -, hcursor, -⟩ := h
  simp only [State.stagedBytes, State.stageRead, hcfg, hstage, hcursor]

/-- The same bytes are copied out. -/
theorem copyOut (h : s.SameReceive u) {wanted : Nat} {bytes : List Byte} {a : State}
    (hcopy : s.copyOut wanted = .ok (bytes, a)) : ∃ b, u.copyOut wanted = .ok (bytes, b) ∧ a.SameReceive b := by
  unfold State.copyOut at hcopy ⊢
  rw [h.payloadLeft]
  cases hleft : s.payloadLeft with
  | none => simp [hleft] at hcopy
  | some rem =>
    simp only [hleft, h.stagedBytes] at hcopy ⊢
    cases hstaged : s.stagedBytes (min wanted rem) with
    | none => simp [hstaged] at hcopy
    | some staged =>
      simp only [hstaged] at hcopy
      cases hcopy
      exact ⟨_, rfl, h.afterCopy _ _⟩

theorem discard (h : s.SameReceive u) (rem : Nat) : (s.discard rem).SameReceive (u.discard rem) := by
  unfold State.discard
  split
  · exact ((h.count rfl 1).count rfl rem).count rfl rem
  · exact h

end State.SameReceive

/-- The next state of the result after `u` agrees with `t` on the receive side, and the answer is that given between `s`
and `t`. -/
def AnswersReceive (s t u : State) (r : Result) : Prop :=
  ∃ v a, r = .next v ∧ t.SameReceive v ∧ t.responses = s.responses ++ [a] ∧ v.responses = u.responses ++ [a]

/-- A command that only answers. -/
theorem State.SameReceive.respond (h : s.SameReceive u) (x : Status) (v : Word) (d : List Byte) :
    AnswersReceive s (s.respond x v d) u (.next (u.respond x v d)) :=
  ⟨_, _, rfl, h, rfl, rfl⟩

/-- Two copies of the same bytes, answered in the same way. -/
theorem State.SameReceive.respondCopy {a b : State} (h : a.SameReceive b) {wanted : Nat} {bytes : List Byte}
    (hs : s.copyOut wanted = .ok (bytes, a)) (hu : u.copyOut wanted = .ok (bytes, b)) (x : Status) (v : Word) :
    AnswersReceive s (a.respond x v bytes) u (.next (b.respond x v bytes)) := by
  obtain ⟨-, hrespS⟩ := copyOut_answers hs
  obtain ⟨-, hrespU⟩ := copyOut_answers hu
  exact ⟨_, _, rfl, h, by rw [State.respond_responses, hrespS], by rw [State.respond_responses, hrespU]⟩

/-- A receive command reads the receive side only. -/
theorem exec_receive (h : s.SameReceive u) (hi : isReceiveCommand i = true) (he : exec i s = .next t) :
    AnswersReceive s t u (exec i u) := by
  have hrxu : u.rxState = s.rxState := by
    obtain ⟨-, -, -, -, -, -, -, hrx, -⟩ := h
    exact hrx.symm
  cases i with
  | inject din =>
    cases (exec_inject din s).symm.trans he
    obtain ⟨hcfg, hring, htail, hunread, hrest⟩ := h
    exact ⟨_, _, exec_inject din u, ⟨hcfg, by simp only [hcfg, hring, htail, hunread], htail,
      by simp only [hcfg, hunread], hrest⟩, rfl, rfl⟩
  | beginRead =>
    obtain ⟨hrx, rfl⟩ | ⟨hrx, -⟩ := execBeginRead_next he
    · rw [exec, execBeginRead, whenNotReading_stop _ (hrxu.trans hrx)]
      exact h.respond _ _ _
    · obtain ⟨k, v, r, -, hr, hexec⟩ := execBeginRead_verdict s.cfg s.unreadBytes
      have ⟨hcfg, _⟩ := h
      cases (hexec s rfl rfl hrx).symm.trans he
      obtain ⟨hsame, a, hs, hu⟩ := (h.scanned k v).verdict hr
      exact ⟨_, a, hexec u hcfg.symm h.unreadBytes (hrxu.trans hrx), hsame, hs, hu⟩
  | read n =>
    obtain ⟨hrx, rfl⟩ | ⟨hrx, bytes, a, hcopy, rfl⟩ := execRead_next he
    · rw [exec, execRead, whenReading_stop _ (hrxu.trans hrx)]
      exact h.respond _ _ _
    · obtain ⟨b, hcopy', hsame⟩ := h.copyOut hcopy
      simp only [exec, execRead, whenReading_pass _ (hrxu.trans hrx), hcopy']
      exact hsame.respondCopy hcopy hcopy' _ _
  | readExact n =>
    obtain ⟨hrx, rfl⟩ | ⟨hrx, bytes, a, hcopy, rfl⟩ := execReadExact_next he
    · rw [exec, execReadExact, whenReading_stop _ (hrxu.trans hrx)]
      exact h.respond _ _ _
    · obtain ⟨b, hcopy', hsame⟩ := h.copyOut hcopy
      simp only [exec, execReadExact, whenReading_pass _ (hrxu.trans hrx), hcopy']
      exact hsame.respondCopy hcopy hcopy' _ _
  | endRead =>
    obtain ⟨hrx, rfl⟩ | ⟨hrx, rem, hleft, rfl⟩ := execEndRead_next he
    · rw [exec, execEndRead, whenReading_stop _ (hrxu.trans hrx)]
      exact h.respond _ _ _
    · simp only [exec, execEndRead, whenReading_pass _ (hrxu.trans hrx), h.payloadLeft, hleft]
      obtain ⟨hcfg, hring, htail, hunread, hstage, hsize, hcursor, -, hstats⟩ := h.discard rem
      exact ⟨_, _, rfl, ⟨hcfg, hring, htail, hunread, hstage, hsize, hcursor, rfl, hstats⟩,
        by rw [discard_frame]; rfl, by rw [discard_frame]; rfl⟩
  | beginWrite | write | endWrite | stat => cases hi

/-! ## The transmit commands -/

/-- The next state of the result after `u` agrees with `t` on the transmit side, and the answer and the emitted bytes are
those given between `s` and `t`. -/
def AnswersTransmit (s t u : State) (r : Result) : Prop :=
  ∃ v a e, r = .next v ∧ t.SameTransmit v ∧ t.responses = s.responses ++ [a] ∧ v.responses = u.responses ++ [a] ∧
    t.sink = s.sink ++ e ∧ v.sink = u.sink ++ e

theorem State.SameTransmit.fail (h : s.SameTransmit u) (x : Status) :
    AnswersTransmit s (s.fail x) u (.next (u.fail x)) :=
  ⟨_, _, [], rfl, h, rfl, rfl, by simp, by simp⟩

/-- A transmit command reads the transmit side only. -/
theorem exec_transmit (h : s.SameTransmit u) (hi : isTransmitCommand i = true) (he : exec i s = .next t) :
    AnswersTransmit s t u (exec i u) := by
  have ⟨hcfg, htxs, hcrc, hsize, hstats⟩ := h
  have hbytes : s.stats.writeByteCount = u.stats.writeByteCount := hstats .writeByteCount rfl
  cases i with
  | beginWrite =>
    obtain ⟨htx, rfl⟩ | ⟨htx, -⟩ := execBeginWrite_next he
    · rw [exec, execBeginWrite, whenNotWriting_stop _ (htxs ▸ htx)]
      exact h.fail _
    · cases (exec_beginWrite_of_notWriting htx).symm.trans he
      exact ⟨_, _, _, exec_beginWrite_of_notWriting (htxs ▸ htx), ⟨hcfg, rfl, rfl, rfl, hstats⟩, rfl, rfl, rfl,
        by rw [hcfg]⟩
  | write din =>
    obtain ⟨htx, rfl⟩ | ⟨htx, -⟩ := execWrite_next he
    · rw [exec, execWrite, whenWriting_stop _ (htxs ▸ htx)]
      exact h.fail _
    · cases (exec_write_of_writing htx din).symm.trans he
      refine ⟨_, _, _, exec_write_of_writing (htxs ▸ htx) din, ⟨hcfg, htxs, ?_, ?_, ?_⟩, rfl, rfl, rfl,
        by rw [hcfg]⟩
      · simp only [hcrc]
      · simp only [hcfg, hsize]
      · simp only [hcfg, hbytes]
        exact Stats.AgreeOn.set hstats .writeByteCount _
  | endWrite =>
    obtain ⟨htx, rfl⟩ | ⟨htx, -⟩ := execEndWrite_next he
    · rw [exec, execEndWrite, whenWriting_stop _ (htxs ▸ htx)]
      exact h.fail _
    · cases (exec_endWrite_of_writing htx rfl).symm.trans he
      have hcount : s.stats.writeFrameCount = u.stats.writeFrameCount := hstats .writeFrameCount rfl
      have hmin : s.stats.writeFrameMinSize = u.stats.writeFrameMinSize := hstats .writeFrameMinSize rfl
      have hmax : s.stats.writeFrameMaxSize = u.stats.writeFrameMaxSize := hstats .writeFrameMaxSize rfl
      refine ⟨_, _, escByte s.cfg s.txCrc ++ [s.cfg.delim], exec_endWrite_of_writing (htxs ▸ htx) rfl,
        ⟨hcfg, rfl, rfl, ?_, ?_⟩, rfl, rfl, ?_, ?_⟩
      · simp only [hcfg, hcrc, hsize]
      · intro c hc
        simp only [hcfg, hcrc, hsize, hbytes, hcount, hmin, hmax]
        cases c with
        | writeFrameMinSize | writeFrameMaxSize | writeFrameCount | writeByteCount => rfl
        | _ => cases hc
      · simp
      · simp [hcfg, hcrc]
  | inject | beginRead | read | readExact | endRead | stat => cases hi

/-- Settles O45: each command by the frame of its side, and by what its operations read. -/
theorem receiveAndTransmitSidesAreIndependent : Obligations.ReceiveAndTransmitSidesAreIndependent := by
  refine fun s u t i he => ⟨fun hi => ?_, fun hi => ?_⟩
  · obtain ⟨hsame, hsink⟩ := sameTransmit_of_exec he hi
    exact ⟨hsame, hsink, fun h => exec_receive h hi he⟩
  · exact ⟨sameReceive_of_exec he hi, fun h => exec_transmit h hi he⟩

end Sys2Proof.Machine
end

section
/-! PROOFS. `BEGIN_READ` in full (42_decode R64 to R73): a scan that has passed the stray bytes, the opening delimiter
and content that fits ends at a second delimiter, at a decoded byte too many, or with the unread bytes. -/

namespace Sys2Proof.Machine

variable {s : State}

/-! ## A scan inside a frame -/

/-- The working values of a scan that has passed `n` bytes, the last of them content decoded to `decoded`. -/
def contentScan (n : Nat) (decoded : List Byte) (pend : Bool) : Scan :=
  { limitCount := 1, pend := pend, dlen := decoded.length, rxCrc := crc8 decoded, n := n }

/-- Stray bytes, the opening delimiter and content that fits are passed in every scan that begins with them. -/
theorem scanBytes_intoFrame {strays body decoded : List Byte} {pend : Bool} (more : List Byte)
    (hstrays : s.cfg.delim ∉ strays) (hbody : s.cfg.delim ∉ body)
    (hdecode : unescape s.cfg false body = (decoded, pend)) (hfits : decoded.length ≤ s.cfg.maxFrame) :
    scanBytes (strays ++ s.cfg.delim :: (body ++ more)) {} s =
      scanBytes more (contentScan (strays.length + 1 + body.length) decoded pend)
        (s.scanned strays.length 0 decoded) := by
  have hopening := scanBytes_opening (body ++ more) (w := { n := strays.length })
    (s := s.count .rxFalseStarts strays.length) rfl
  have hcontent := scanBytes_content more (bs := body) (w := { n := strays.length + 1, limitCount := 1 })
    (s := s.count .rxFalseStarts strays.length) rfl hbody (by simpa [hdecode] using hfits)
  rw [scanBytes_strays _ rfl hstrays, Nat.zero_add]
  refine hopening.trans (hcontent.trans ?_)
  simp only [State.count_cfg, hdecode, Nat.zero_add]
  rfl

/-- `BEGIN_READ` over such unread bytes ends as the scan of what follows the content does. -/
theorem exec_beginRead_intoFrame {strays body more decoded : List Byte} {pend : Bool} (hrx : s.rxState = .notReading)
    (hunread : s.unreadBytes = strays ++ s.cfg.delim :: (body ++ more))
    (hstrays : s.cfg.delim ∉ strays) (hbody : s.cfg.delim ∉ body)
    (hdecode : unescape s.cfg false body = (decoded, pend)) (hfits : decoded.length ≤ s.cfg.maxFrame) :
    exec .beginRead s = .next (finishScan s.tail s.unread
      (scanBytes more (contentScan (strays.length + 1 + body.length) decoded pend)
        (s.scanned strays.length 0 decoded))) := by
  rw [exec, execBeginRead, whenNotReading_pass _ hrx, hunread,
    scanBytes_intoFrame more hstrays hbody hdecode hfits]

/-- At a second delimiter the checks decide (42_decode R69). -/
theorem exec_beginRead_closing {strays body rest decoded : List Byte} {pend : Bool} (hrx : s.rxState = .notReading)
    (hunread : s.unreadBytes = strays ++ s.cfg.delim :: (body ++ s.cfg.delim :: rest))
    (hstrays : s.cfg.delim ∉ strays) (hbody : s.cfg.delim ∉ body)
    (hdecode : unescape s.cfg false body = (decoded, pend)) (hfits : decoded.length ≤ s.cfg.maxFrame) :
    exec .beginRead s = .next (closeFrame
      { contentScan (strays.length + body.length + 2) decoded pend with limitCount := 2 }
      (s.scanned strays.length 0 decoded)) := by
  have hn : strays.length + 1 + body.length + 1 = strays.length + body.length + 2 := by omega
  have hclosing := scanBytes_closing rest (w := contentScan (strays.length + 1 + body.length) decoded pend)
    (s := s.scanned strays.length 0 decoded) rfl
  rw [exec_beginRead_intoFrame hrx hunread hstrays hbody hdecode hfits]
  rw [scanned_cfg] at hclosing
  rw [hclosing, ← hn]
  rfl

/-- When the unread bytes are consumed up to and including `b`, those after it are left. -/
theorem unreadBytes_of_consumedFrame {t : State} {strays body rest : List Byte} {b : Byte}
    (hunread : s.unreadBytes = strays ++ s.cfg.delim :: (body ++ b :: rest))
    (hring : t.ring = s.ring) (hcfg : t.cfg = s.cfg)
    (htail : t.tail = word ((s.tail.toNat + (strays.length + body.length + 2)) % s.cfg.ringCap))
    (hleft : t.unread = word (s.unread.toNat - (strays.length + body.length + 2))) : t.unreadBytes = rest := by
  have hlen : s.unread.toNat = strays.length + body.length + 2 + rest.length := by
    rw [← unreadBytes_length, hunread]
    simp
    omega
  have hn : strays.length + body.length + 2 = (strays ++ s.cfg.delim :: (body ++ [b])).length := by
    simp
    omega
  have hsplit : strays ++ s.cfg.delim :: (body ++ b :: rest) = (strays ++ s.cfg.delim :: (body ++ [b])) ++ rest := by
    simp
  calc t.unreadBytes = (s.consume (strays.length + body.length + 2)).unreadBytes :=
        unreadBytes_congr hring htail hleft hcfg
    _ = s.unreadBytes.drop (strays.length + body.length + 2) := unreadBytes_consume s (by omega)
    _ = rest := by rw [hunread, hsplit, hn, List.drop_left]

/-! ## A complete frame -/

/-- The checksum of a payload followed by its own is 0 (44_checksum R91). -/
theorem crc8_append_self (p : List Byte) : crc8 (p ++ [crc8 p]) = 0 := by
  rw [crc8, crcFrom, List.foldl_append]
  exact crcUpdate_self (crc8 p)

/-- Settles O22: at the second delimiter no escape is pending, a byte is decoded and the checksum is 0. -/
theorem beginReadAcceptsAValidFrame : Obligations.BeginReadAcceptsAValidFrame := by
  intro s strays body rest payload hinv hrx hunread hstrays hbody hdecode hsize n size
  have hlen : (payload ++ [crc8 payload]).length = payload.length + 1 := List.length_append
  have hexec := exec_beginRead_closing hrx hunread hstrays hbody hdecode (hlen.trans_le hsize)
  have haccept : ∀ u, closeFrame
      { contentScan n (payload ++ [crc8 payload]) false with limitCount := 2 } u =
        acceptFrame (payload.length + 1) (u.consume n) := fun u => by
    simp [closeFrame, contentScan, crc8_append_self]
  rw [haccept] at hexec
  exact ⟨_, hexec, stagedOver_writeAll hinv.stage_wf _⟩

/-- Settles O23: each check of `closeFrame` in turn, and past them all the acceptance. -/
theorem secondDelimiterChecksRunInOrder : Obligations.SecondDelimiterChecksRunInOrder := by
  intro s strays body rest decoded pend hinv hrx hunread hstrays hbody hdecode hfits n add rejected
  have hexec := exec_beginRead_closing hrx hunread hstrays hbody hdecode hfits
  have hstaged := stagedOver_writeAll hinv.stage_wf decoded
  have hclose : ∀ u, closeFrame { contentScan n decoded pend with limitCount := 2 } u =
      if pend = true then ((u.consume n).count .rxRejectedEncodingError 1).fail .badEncoding
      else if decoded.length < 1 then ((u.consume n).count .rxRejectedTooSmall 1).fail .tooSmall
      else if crc8 decoded ≠ 0 then ((u.consume n).count .rxRejectedBadCrc8 1).fail .badCrc8
      else acceptFrame decoded.length (u.consume n) := fun u => rfl
  rw [hclose] at hexec
  split_ifs at hexec ⊢
  · exact ⟨_, hexec, hstaged⟩
  · exact ⟨_, hexec, hstaged⟩
  · exact ⟨_, hexec, hstaged⟩
  · exact ⟨_, hexec, rfl, unreadBytes_of_consumedFrame hunread rfl rfl rfl rfl, rfl⟩

/-! ## A frame too big -/

/-- Settles O24: the byte finds `M` decoded bytes stored. -/
theorem tooBigOnTheByteAfterTheLastThatFits : Obligations.TooBigOnTheByteAfterTheLastThatFits := by
  intro s strays body rest decoded b pend hinv hrx hunread hstrays hbody hb hdecode hfull hstored n
  have hn : strays.length + 1 + body.length + 1 = n := by omega
  have hexec := exec_beginRead_intoFrame hrx hunread hstrays hbody hdecode hfull.le
  rw [scanBytes_tooBig rest (by rfl) (by exact hb) (by exact hfull) (by exact hstored)] at hexec
  simp only [contentScan, hn] at hexec
  exact ⟨_, _, hexec, rfl, stagedOver_writeAll hinv.stage_wf decoded,
    unreadBytes_of_consumedFrame hunread rfl rfl rfl rfl⟩

/-! ## No complete frame -/

/-- What follows the first delimiter among the unread bytes; nothing when there is none. -/
def afterDelimiter (s : State) : List Byte := (s.unreadBytes.dropWhile (· ≠ s.cfg.delim)).tail

/-- A scan that runs out of bytes has counted the stray bytes and staged what it decoded (42_decode R73). -/
theorem exec_beginRead_exhausted (hrx : s.rxState = .notReading) (hnone : NoCompleteFrame s) :
    exec .beginRead s = .next
      ((s.scanned (strayCount s) 0 (unescape s.cfg false (afterDelimiter s)).1).fail .noFrame) := by
  obtain ⟨hbody, hfits⟩ := hnone
  have hsplit := List.takeWhile_append_dropWhile (p := (· ≠ s.cfg.delim)) (l := s.unreadBytes)
  have hstrays : s.cfg.delim ∉ s.unreadBytes.takeWhile (· ≠ s.cfg.delim) := fun hmem => by
    simpa using List.mem_takeWhile_imp hmem
  cases hdrop : s.unreadBytes.dropWhile (· ≠ s.cfg.delim) with
  | nil =>
    rw [hdrop] at hsplit
    rw [exec, execBeginRead, whenNotReading_pass _ hrx, ← hsplit, scanBytes_strays [] rfl hstrays, afterDelimiter,
      hdrop]
    rfl
  | cons b body =>
    obtain rfl : b = s.cfg.delim := by
      have hhead := List.head?_dropWhile_not (· ≠ s.cfg.delim) s.unreadBytes
      rw [hdrop] at hhead
      simpa using hhead
    rw [hdrop] at hsplit hbody hfits
    rw [List.tail_cons] at hbody hfits
    rw [exec_beginRead_intoFrame (more := []) hrx (by rw [List.append_nil, hsplit]) hstrays hbody rfl hfits,
      afterDelimiter, hdrop]
    rfl

/-- Settles O25: the scan runs out of bytes, and only what it staged and counted stays. -/
theorem noFrameRollsBackExactly : Obligations.NoFrameRollsBackExactly :=
  fun _ hinv hrx hnone => ⟨_, exec_beginRead_exhausted hrx hnone, stagedOver_writeAll hinv.stage_wf _⟩

/-- Whether a frame is complete depends on the ring and the configuration only. -/
theorem State.SameRing.noCompleteFrame {t : State} (h : s.SameRing t) (hnone : NoCompleteFrame s) :
    NoCompleteFrame t := by
  rwa [NoCompleteFrame, h.unreadBytes, h.cfg]

/-- Settles O26, by induction on the polls: each leaves the ring to the next and adds the same stray bytes. -/
theorem pollingCountsTheStrayBytesAgain : Obligations.PollingCountsTheStrayBytesAgain := by
  intro s k hinv hrx hnone
  induction k generalizing s with
  | zero => exact ⟨s, rfl, by simp, by simp, rfl⟩
  | succ k ih =>
    obtain ⟨u, hu, hsame, hresp⟩ : ∃ u, exec .beginRead s = .next u ∧ s.SameRing u ∧
        u.responses = s.responses ++ [⟨.noFrame, 0, []⟩] :=
      ⟨_, exec_beginRead_exhausted hrx hnone, ⟨rfl, rfl, rfl, rfl, rfl⟩, rfl⟩
    obtain ⟨t, ht, hresps, hcount, hunread⟩ :=
      ih u (exec_keeps_inv hinv hu) (hsame.rxState.trans hrx) (hsame.noCompleteFrame hnone)
    refine ⟨t, (execAll_cons hu _).trans ht, ?_, ?_, hunread.trans hsame.unreadBytes⟩
    · rw [hresps, hresp, List.replicate_succ, List.append_assoc, List.singleton_append]
    · rw [hcount, execBeginRead_rxFalseStarts hu hrx, hsame.cfg, hsame.strayCount, addCounting_addCounting,
        Nat.succ_mul, Nat.add_comm]

end Sys2Proof.Machine
end

section
/-! PROOFS. The session checks (42_decode R65, 60_exceptions R103), `READ`, `READ_EXACT` and `END_READ` in full (42_decode
R76 to R78), and that a closed frame has counted its payload once (R79). -/

namespace Sys2Proof.Machine

variable {s t : State}

/-! ## The session checks -/

/-- A read command with no session open only answers `NotReady`. -/
theorem exec_of_notReading (h : s.rxState = .notReading) {i : Instr} {n : BitVec 16}
    (hi : i = .read n ∨ i = .readExact n ∨ i = .endRead) : exec i s = .next (s.fail .notReady) := by
  obtain rfl | rfl | rfl := hi <;> exact whenReading_stop _ h

/-- Settles O15, a session check for each command. -/
theorem wrongSessionOnlyAnswersNotReady : Obligations.WrongSessionOnlyAnswersNotReady := by
  refine fun s n din => ⟨whenNotReading_stop _, fun h i hi => exec_of_notReading h hi, whenNotWriting_stop _,
    fun h i hi => ?_⟩
  obtain rfl | rfl := hi <;> exact whenWriting_stop _ h

/-! ## READ, READ_EXACT and END_READ -/

/-- The command word of a command without data: the row of its opcode, and the argument. -/
theorem encode_of_row {i : Instr} {op : Opcode} {row : Word} (hop : i.opcode = op)
    (hrow : row.toNat = op.number.toNat * 2 ^ 28) (hdata : i.data = []) : encode i = ⟨row + word i.arg.toNat, []⟩ := by
  have hcmd : commandWord op i.arg = row + word i.arg.toNat := by
    apply BitVec.eq_of_toNat_eq
    have hnumber := op.number.isLt
    have harg := i.arg.isLt
    rw [commandWord_toNat, BitVec.toNat_add, word_toNat (by omega)]
    omega
  rw [encode, hop, hcmd, hdata]

/-- Settles O28: the copy takes what is asked for as far as payload is left. -/
theorem readCopiesStagedPayload : Obligations.ReadCopiesStagedPayload := by
  refine fun s maxLen => ⟨encode_of_row (op := .read) rfl (by decide) rfl,
    fun h => exec_of_notReading h (.inl rfl), fun hrx hcursor hsize => ?_⟩
  simp only [exec, execRead, whenReading_pass _ hrx, copyOut_ok hcursor hsize, afterCopy_eq, List.length_map,
    List.length_range]
  rfl

/-- Settles O29: the copy of `READ`, and its length against what was asked for. -/
theorem readExactCopiesOrAnswersNotEnough : Obligations.ReadExactCopiesOrAnswersNotEnough := by
  refine fun s len => ⟨encode_of_row (op := .readExact) rfl (by decide) rfl,
    fun h => exec_of_notReading h (.inr (.inl rfl)), fun hrx hcursor hsize => ?_⟩
  simp only [exec, execReadExact, whenReading_pass _ hrx, copyOut_ok hcursor hsize, afterCopy_eq, List.length_map,
    List.length_range]
  rfl

/-- `END_READ` in a session counts what is left and closes it (42_decode R78). -/
theorem exec_endRead_of_reading (hrx : s.rxState = .reading) (hcursor : s.cursor.toNat ≤ s.stageSize.toNat) :
    exec .endRead s = .next
      ({ s.discard (s.stageSize.toNat - s.cursor.toNat) with rxState := .notReading }.respond .ok 0 []) := by
  rw [exec, execEndRead, whenReading_pass _ hrx, payloadLeft_eq hcursor]

/-- Settles O30: a rest of 0 and a positive one. -/
theorem endReadDiscardsAndCloses : Obligations.EndReadDiscardsAndCloses := by
  refine ⟨rfl, fun s => ⟨fun h => exec_of_notReading (n := 0) h (.inr (.inr rfl)), fun hrx hcursor => ?_⟩⟩
  rw [exec_endRead_of_reading hrx hcursor, State.discard]
  dsimp only
  split_ifs <;> rfl

/-! ## A session counts its payload once -/

/-- What `readByteCount` comes to once the rest of the payload is read or discarded (42_decode R79). -/
def State.countAtEnd (s : State) : Word :=
  addCounting s.cfg.counterMode s.stats.readByteCount (s.stageSize.toNat - s.cursor.toNat)

/-- A copy takes from the rest what it adds to `readByteCount`. -/
theorem countAtEnd_copyOut {u : State} {wanted : Nat} {bytes : List Byte} (h : s.copyOut wanted = .ok (bytes, u)) :
    u.countAtEnd = s.countAtEnd := by
  obtain ⟨hcursor, -, rfl⟩ := copyOut_cases h
  have hsize := s.stageSize.isLt
  rw [afterCopy_eq, State.countAtEnd, State.countAtEnd, addCounting_addCounting, word_toNat (by omega)]
  dsimp only
  congr 1
  omega

/-- A command that leaves the session open leaves what it will have counted. -/
theorem exec_keeps_countAtEnd {i : Instr} (h : exec i s = .next t) (hrx : s.rxState = .reading) (hend : i ≠ .endRead) :
    t.rxState = .reading ∧ t.countAtEnd = s.countAtEnd := by
  have hopen : t.rxState = .reading := by
    cases ht : t.rxState with
    | notReading => exact absurd (endRead_of_rxState_closes h hrx ht) hend
    | reading => rfl
  refine ⟨hopen, ?_⟩
  obtain ⟨hcfg, -, -, -, -, hcursor, -⟩ := exec_register_writers h
  obtain ⟨-, hsize⟩ := staged_of_reading h hrx
  have hcounter : ¬ Counter.readByteCount.WrittenBy i → t.stats.readByteCount = s.stats.readByteCount :=
    exec_counter (c := .readByteCount) h
  cases i with
  | read n =>
    obtain ⟨hclosed, -⟩ | ⟨-, bytes, u, hcopy, rfl⟩ := execRead_next h
    · exact absurd (hrx.symm.trans hclosed) (by decide)
    · exact (countAtEnd_copyOut hcopy :)
  | readExact n =>
    obtain ⟨hclosed, -⟩ | ⟨-, bytes, u, hcopy, rfl⟩ := execReadExact_next h
    · exact absurd (hrx.symm.trans hclosed) (by decide)
    · exact (countAtEnd_copyOut hcopy :)
  | endRead => exact absurd rfl hend
  | beginRead => rw [execBeginRead_reading h hrx]; rfl
  | inject | beginWrite | write | endWrite | stat =>
    rw [State.countAtEnd, hcfg, hsize, hcursor (by simp) (by simp) (by simp), hcounter (by simp [Counter.WrittenBy])]
    rfl

/-- So does a sequence of such commands, which a legal session completes. -/
theorem execAll_keeps_countAtEnd {is : List Instr} (hinv : s.Inv) (hrx : s.rxState = .reading)
    (hend : ∀ i ∈ is, i ≠ .endRead) :
    ∃ t, execAll is s = .next t ∧ t.Inv ∧ t.rxState = .reading ∧ t.countAtEnd = s.countAtEnd := by
  induction is generalizing s with
  | nil => exact ⟨s, rfl, hinv, hrx, rfl⟩
  | cons i is ih =>
    obtain ⟨hi, his⟩ := List.forall_mem_cons.mp hend
    obtain ⟨u, hu⟩ := exec_completes hinv i
    obtain ⟨hopen, hcount⟩ := exec_keeps_countAtEnd hu hrx hi
    obtain ⟨t, ht, htinv, htrx, htcount⟩ := ih (exec_keeps_inv hinv hu) hopen his
    exact ⟨t, (execAll_cons hu is).trans ht, htinv, htrx, htcount.trans hcount⟩

/-- A session opens with the cursor at the payload's start, so all of it is still to be counted. -/
theorem countAtEnd_of_opening {a : State} (h : exec .beginRead s = .next a) (hrx : s.rxState = .notReading)
    (hopen : a.rxState = .reading) :
    a.countAtEnd = addCounting s.cfg.counterMode s.stats.readByteCount a.stageSize.toNat := by
  have hcursor : a.cursor = 0 := by
    obtain ⟨hreading, -⟩ | ⟨-, k, v, r, -, -, rfl⟩ := execBeginRead_cases h
    · exact absurd (hrx.symm.trans hreading) (by decide)
    · cases r with
      | rejected n c x => exact absurd (hrx.symm.trans hopen) (by decide)
      | accepted n dlen => rfl
      | noFrame => exact absurd (hrx.symm.trans hopen) (by decide)
  obtain ⟨hcfg, -⟩ := exec_register_writers h
  have hcount : a.stats.readByteCount = s.stats.readByteCount :=
    exec_counter (c := .readByteCount) h (by simp [Counter.WrittenBy])
  rw [State.countAtEnd, hcfg, hcount, hcursor]
  rfl

/-- Closing the session counts the rest. -/
theorem discard_readByteCount (s : State) (rem : Nat) :
    (s.discard rem).stats.readByteCount = addCounting s.cfg.counterMode s.stats.readByteCount rem := by
  unfold State.discard
  split
  · rfl
  · next hrem => rw [Nat.eq_zero_of_not_pos hrem, addCounting_zero]

/-- Settles O31: what the session comes to count is the payload at its opening, kept by every command, and counted in
full by `END_READ`. -/
theorem closedFrameCountsItsPayloadOnce : Obligations.ClosedFrameCountsItsPayloadOnce := by
  intro s a between hinv hrx hbegin hopen hend
  obtain ⟨t, ht, htinv, htrx, hcount⟩ := execAll_keeps_countAtEnd (exec_keeps_inv hinv hbegin) hopen hend
  have hclose := exec_endRead_of_reading htrx htinv.cursor_le
  refine ⟨_, (execAll_append ht _).trans (execAll_cons hclose []), rfl, ?_⟩
  calc (t.discard (t.stageSize.toNat - t.cursor.toNat)).stats.readByteCount
    _ = t.countAtEnd := discard_readByteCount t _
    _ = a.countAtEnd := hcount
    _ = addCounting s.cfg.counterMode s.stats.readByteCount a.stageSize.toNat := countAtEnd_of_opening hbegin hrx hopen

end Sys2Proof.Machine
end

section
/-! PROOFS. What the encoder emits for a payload below `M` bytes, the receiver decodes back to that payload (42_decode
R75): escape removal undoes escaping, and the frame is then one that `BEGIN_READ` accepts. -/

namespace Sys2Proof.Machine

variable {s : State}

/-! ## Escape removal -/

/-- Escape removal undoes escaping: a byte after the escape byte gets its bit pattern back, any other escaped byte is no
escape byte (42_decode R67). -/
theorem unescape_escByte_append (cfg : Config) (b : Byte) (bs : List Byte) :
    unescape cfg false (escByte cfg b ++ bs) = (b :: (unescape cfg false bs).1, (unescape cfg false bs).2) := by
  unfold escByte
  split
  · simp [unescape]
  · next hb =>
    have hesc : b ≠ cfg.esc := fun h => hb (.inr h)
    simp [unescape, hesc]

theorem unescape_escBytes (cfg : Config) (p : List Byte) : unescape cfg false (escBytes cfg p) = (p, false) := by
  induction p with
  | nil => rfl
  | cons b bs ih =>
    have hcons : escBytes cfg (b :: bs) = escByte cfg b ++ escBytes cfg bs := rfl
    rw [hcons, unescape_escByte_append, ih]

/-- A frame's content, between its delimiters, is the escaped payload and check byte. -/
theorem wireFrame_eq (cfg : Config) (p : List Byte) :
    wireFrame cfg p = cfg.delim :: (escBytes cfg (p ++ [crc8 p]) ++ [cfg.delim]) := by
  simp [wireFrame, escBytes]

/-! ## The receiver -/

/-- An empty ring with room for them holds the injected bytes, and nothing else is written. -/
theorem exec_inject_empty {w : List Byte} (hinv : s.Inv) (hempty : s.unread = 0) (hroom : w.length ≤ s.cfg.ringCap) :
    ∃ t, exec (.inject w) s = .next t ∧ t.unreadBytes = w ∧ t.cfg = s.cfg ∧ t.tail = s.tail ∧ t.rxState = s.rxState ∧
      t.responses = s.responses ++ [⟨.ok, 0, []⟩] := by
  have hzero : s.unread.toNat = 0 := by rw [hempty]; rfl
  have hnone : s.unreadBytes = [] := List.eq_nil_of_length_eq_zero ((unreadBytes_length s).trans hzero)
  obtain ⟨t, ht, hbytes⟩ := injectExtendsTheUnreadBytes s w hinv
  rw [hnone, hzero, Nat.sub_zero, List.take_of_length_le hroom, List.nil_append] at hbytes
  obtain ⟨hcfg, -, -, htail, -, -, hrx, -⟩ := exec_register_writers ht
  obtain ⟨r, hresp, rfl⟩ := eachCommandAnswersInItsOwnForm s t _ ht
  exact ⟨t, ht, hbytes, hcfg, (htail (by simp)).1, hrx (by simp) (by simp), hresp⟩

/-- A session is open with the payload `p` staged and nothing of it read. -/
structure State.Staged (s : State) (p : List Byte) : Prop where
  rxState : s.rxState = .reading
  stageSize : s.stageSize = word p.length
  cursor : s.cursor = 0
  stage : ∀ j (h : j < p.length), Memory.read s.stage j = p[j]

/-- Unread bytes that are a frame of `p` are all consumed, and `p` is staged. -/
theorem exec_beginRead_wireFrame {p : List Byte} (hinv : s.Inv) (hrx : s.rxState = .notReading)
    (hunread : s.unreadBytes = wireFrame s.cfg p) (hsize : p.length < s.cfg.maxFrame) :
    ∃ t, exec .beginRead s = .next t ∧ t.Staged p ∧ t.cfg = s.cfg ∧ t.unread = 0 ∧
      t.tail = word ((s.tail.toNat + (wireFrame s.cfg p).length) % s.cfg.ringCap) ∧
      t.responses = s.responses ++ [⟨.ok, word p.length, []⟩] := by
  have hlen : ([] : List Byte).length + (escBytes s.cfg (p ++ [crc8 p])).length + 2 = (wireFrame s.cfg p).length := by
    rw [wireFrame_eq]
    simp
  have hall : s.unread.toNat = (wireFrame s.cfg p).length := by rw [← hunread, unreadBytes_length]
  obtain ⟨g, hexec, hstaged, -⟩ := beginReadAcceptsAValidFrame s [] (escBytes s.cfg (p ++ [crc8 p])) [] p hinv hrx
    (hunread.trans (wireFrame_eq s.cfg p)) List.not_mem_nil (delim_not_mem_escBytes _ _) (unescape_escBytes _ _) hsize
  rw [hlen, hall, Nat.sub_self] at hexec
  refine ⟨_, hexec, ⟨rfl, rfl, rfl, fun j hj => ?_⟩, rfl, rfl, rfl, rfl⟩
  rw [hstaged j (by rw [List.length_append]; omega), List.getElem_append_left hj]

/-- Asked for the whole of a staged payload, `READ_EXACT` answers with it. -/
theorem exec_readExact_whole {p : List Byte} (h : s.Staged p) (hsize : p.length < s.cfg.maxFrame)
    (hlen : p.length ≤ 65535) :
    ∃ t, exec (.readExact (BitVec.ofNat 16 p.length)) s = .next t ∧ t.unread = s.unread ∧ t.tail = s.tail ∧
      t.responses = s.responses ++ [⟨.ok, word p.length, p⟩] := by
  have hword : s.stageSize.toNat = p.length := by rw [h.stageSize, word_toNat (by omega)]
  have hcursor : s.cursor.toNat = 0 := by rw [h.cursor]; rfl
  have hasked : (BitVec.ofNat 16 p.length).toNat = p.length := Laws.FixedBits.length_arg (decide_eq_true hlen)
  have hbytes : (List.range p.length).map (fun j => Memory.read s.stage (0 + j)) = p := by
    refine List.ext_getElem (by simp) fun j _ hj => ?_
    rw [List.getElem_map, List.getElem_range, Nat.zero_add, h.stage j hj]
  obtain ⟨-, -, hexec⟩ := readExactCopiesOrAnswersNotEnough s (BitVec.ofNat 16 p.length)
  have hcopied := hexec h.rxState (by omega) (by omega)
  simp only [hword, hcursor, hasked, Nat.sub_zero, Nat.min_self, Nat.lt_irrefl, if_false, hbytes] at hcopied
  exact ⟨_, hcopied, rfl, rfl, rfl⟩

/-- Settles O38: the sink carries the frame of the payload, the ring holds it, `BEGIN_READ` consumes it and stages the
payload, and `READ_EXACT` hands the payload out. -/
theorem encodedFramesRoundTrip : Obligations.EncodedFramesRoundTrip := by
  intro tx rx p htx hinv hrx hempty hcfg hsize hlen
  obtain ⟨tx', hencode, hsink, -⟩ := encoderEmitsExactlyTheWireFrame tx [p] htx
  rw [List.flatten_singleton, ← hcfg] at hsink
  refine ⟨tx', wireFrame rx.cfg p, hencode, hsink, fun hroom => ?_⟩
  obtain ⟨t₁, h₁, hbytes, hcfg₁, htail₁, hrx₁, hresp₁⟩ := exec_inject_empty hinv hempty hroom
  obtain ⟨t₂, h₂, hstaged, hcfg₂, hunread₂, htail₂, hresp₂⟩ := exec_beginRead_wireFrame (exec_keeps_inv hinv h₁)
    (hrx₁.trans hrx) (by rw [hbytes, hcfg₁]) (by rwa [hcfg₁])
  obtain ⟨t₃, h₃, hunread₃, htail₃, hresp₃⟩ := exec_readExact_whole hstaged (by rwa [hcfg₂, hcfg₁]) hlen
  refine ⟨t₃, ?_, ?_, hunread₃.trans hunread₂, ?_⟩
  · rw [execAll_cons h₁, execAll_cons h₂, execAll_cons h₃, execAll]
  · rw [hresp₃, hresp₂, hresp₁]
    simp
  · rw [htail₃, htail₂, htail₁, hcfg₁]

end Sys2Proof.Machine
end

section
/-! PROOFS. What each of `BEGIN_WRITE`, `WRITE` and `END_WRITE` is encoded as, when it answers `NotReady`, and its full
effect in its session (43_encode R81 to R84). -/

namespace Sys2Proof.Machine

/-- A command word is the row of its opcode plus its argument: the reserved field between them is 0 (30_encoding R51). -/
theorem commandWord_of_row {op : Opcode} {row : Word} (hrow : row.toNat = op.number.toNat * 2 ^ 28) (arg : BitVec 16) :
    commandWord op arg = row + word arg.toNat := by
  apply BitVec.eq_of_toNat_eq
  have hnumber := op.number.isLt
  have harg := arg.isLt
  rw [commandWord_toNat, BitVec.toNat_add, word_toNat (by omega)]
  omega

/-- The command word of `WRITE`: the row's fixed bits, and the length of the data in `ARG`. -/
theorem encode_write {din : List Byte} (h : din.length ≤ 65535) :
    encode (.write din) = ⟨0x70000000 + word din.length, din⟩ := by
  have harg : (Instr.write din).arg.toNat = din.length := Laws.FixedBits.length_arg (decide_eq_true h)
  have hcmd : commandWord .write (Instr.write din).arg = 0x70000000 + word din.length := by
    rw [commandWord_of_row (row := 0x70000000) (by decide), harg]
  exact congrArg (Transaction.mk · din) hcmd

/-- Settles O32: the session check, and the opening of a frame. -/
theorem beginWriteOpensAFrame : Obligations.BeginWriteOpensAFrame :=
  ⟨rfl, fun _ => ⟨whenNotWriting_stop _, exec_beginWrite_of_notWriting⟩⟩

/-- Settles O33: the encoding, the session check, and the write path over the whole of the data. -/
theorem writeEmitsTheEscapedPayload : Obligations.WriteEmitsTheEscapedPayload :=
  fun _ din => ⟨encode_write, whenWriting_stop _, fun h => exec_write_of_writing h din⟩

/-- Settles O34: the session check, and the close of a frame with the size it has on the wire. -/
theorem endWriteAppendsCheckByteAndDelimiter : Obligations.EndWriteAppendsCheckByteAndDelimiter :=
  ⟨rfl, fun _ => ⟨whenWriting_stop _, fun h => exec_endWrite_of_writing h rfl⟩⟩

end Sys2Proof.Machine
end

section
/-! PROOFS. The checksum table is a linear permutation, and a check byte leaves checksum 0 exactly when it is the
payload's checksum (44_checksum R88 to R92). -/

namespace Sys2Proof.Machine

/-! ## One bit of the division -/

/-- One bit of the division is linear: the shift is, and the polynomial is added once for each bit shifted out. -/
theorem crcShift_xor (a b : Byte) : crcShift (a ^^^ b) = crcShift a ^^^ crcShift b := by
  simp only [crcShift, BitVec.msb_xor, BitVec.shiftLeft_xor_distrib]
  cases a.msb <;> cases b.msb
  case false.false => rfl
  case false.true => exact BitVec.xor_assoc ..
  case true.false =>
    show a <<< 1 ^^^ b <<< 1 ^^^ 7 = a <<< 1 ^^^ 7 ^^^ b <<< 1
    ac_rfl
  case true.true =>
    calc a <<< 1 ^^^ b <<< 1 = a <<< 1 ^^^ b <<< 1 ^^^ (7 ^^^ 7) := BitVec.xor_zero.symm
      _ = (a <<< 1 ^^^ 7) ^^^ (b <<< 1 ^^^ 7) := by ac_rfl

/-- One bit of the division gives 0 from 0 only: with bit 7 set the polynomial makes the result odd, and with bit 7 clear
the shift drops nothing. -/
theorem eq_zero_of_crcShift_eq_zero {r : Byte} (h : crcShift r = 0) : r = 0 := by
  cases hmsb : r.msb with
  | true =>
    have hseven : r <<< 1 = 7#8 := by simpa [crcShift, hmsb, BitVec.xor_eq_zero_iff] using h
    bv_omega
  | false =>
    have hshift : r <<< 1 = 0#8 := by simpa [crcShift, hmsb] using h
    rw [BitVec.msb_eq_false_iff_two_mul_lt] at hmsb
    bv_omega

/-- A linear map that gives 0 from 0 only is injective. -/
theorem crcShift_injective : Function.Injective crcShift := by
  intro a b h
  have hxor : crcShift (a ^^^ b) = 0 := by rw [crcShift_xor, h, BitVec.xor_self]; rfl
  exact BitVec.xor_eq_zero_iff.mp (eq_zero_of_crcShift_eq_zero hxor)

/-! ## The table -/

/-- The table is linear, as eight linear shifts. -/
theorem crcTable_xor (a b : Byte) : crcTable (a ^^^ b) = crcTable a ^^^ crcTable b := by
  simp only [crcTable, crcShift_xor]

/-- The table is injective, as eight injective shifts. -/
theorem crcTable_injective : Function.Injective crcTable :=
  crcShift_injective.iterate 8

@[simp] theorem crcTable_zero : crcTable 0 = 0 := by decide

/-- The only zero of the table is at 0. -/
theorem crcTable_eq_zero_iff {i : Byte} : crcTable i = 0 ↔ i = 0 :=
  crcTable_injective.eq_iff' crcTable_zero

/-- The running checksum becomes 0 exactly on the byte it equals. -/
theorem crcUpdate_eq_zero_iff {c v : Byte} : crcUpdate c v = 0 ↔ v = c := by
  rw [crcUpdate, crcTable_eq_zero_iff, eq_comm (a := v)]
  exact BitVec.xor_eq_zero_iff

/-- Settles O39: the table is injective on a finite type, and linear. -/
theorem checksumTableIsALinearPermutation : Obligations.ChecksumTableIsALinearPermutation :=
  ⟨crcTable_zero, Finite.injective_iff_bijective.mp crcTable_injective, crcTable_xor, fun _ _ => crcUpdate_eq_zero_iff⟩

/-! ## The check byte -/

/-- The checksum of a sequence with one more byte is one more update (44_checksum R90). -/
theorem crc8_concat (p : List Byte) (v : Byte) : crc8 (p ++ [v]) = crcUpdate (crc8 p) v :=
  List.foldl_concat ..

/-- Settles O40: the last update is 0 exactly on the byte the running checksum equals. -/
theorem checksumIsZeroExactlyForTheCheckByte : Obligations.ChecksumIsZeroExactlyForTheCheckByte := by
  intro p c
  rw [crc8_concat, crcUpdate_eq_zero_iff]

end Sys2Proof.Machine
end

section
/-! PROOFS. `STAT` and the counters (45_statistics R95 to R100): a count wraps or saturates, and no command changes the
statistics but by `Count`, and by `Lower` and `Raise` of a pair with one size. -/

namespace Sys2Proof.Machine

variable {s t : State} {m : CounterMode} {x y : Stats}

/-! ## STAT and Count -/

/-- Settles O41: the encoding by its row, and the counters in the order of R95 by their numbers. -/
theorem statReadsTheNumberedCounter : Obligations.StatReadsTheNumberedCounter := by
  refine fun s k => ⟨?_, ?_⟩
  · have harg : (Instr.stat k).arg.toNat = k.val := by
      have hk := k.isLt
      rw [Instr.arg, BitVec.toNat_ofNat]
      omega
    rw [encode_of_row (op := .stat) (row := 0x90000000) rfl (by decide) rfl, harg]
  · fin_cases k <;> rfl

theorem get_count_same (s : State) (c : Counter) (a : Nat) :
    (s.count c a).stats.get c = addCounting s.cfg.counterMode (s.stats.get c) a := Stats.get_set_same ..

/-- Settles O42: a counter and `txSize` are added to in the same way, by cases of the mode. -/
theorem countersWrapOrSaturate : Obligations.CountersWrapOrSaturate := by
  refine fun s c d a => ⟨get_count_other s a, fun hmode => ?_, fun hmode => ?_⟩
  · rw [get_count_same, State.addTxSize_txSize, hmode]
    exact ⟨addCounting_wrap .., addCounting_wrap ..⟩
  · rw [get_count_same, State.addTxSize_txSize, hmode]
    exact ⟨addCounting_saturate .., addCounting_saturate ..⟩

theorem le_addCounting_saturate (v : Word) (a : Nat) : v ≤ addCounting .saturate v a := by
  have hv := v.isLt
  rw [BitVec.le_def, addCounting_saturate]
  omega

/-! ## Lower and Raise -/

/-- The two pairs of a minimum and a maximum: of received payload sizes, and of written on-wire sizes. -/
inductive SizePair where
  | received
  | written

/-- The counter lowered for the pair (45_statistics R95). -/
def SizePair.minimum : SizePair → Counter
  | .received => .minRxFrameSize
  | .written => .writeFrameMinSize

/-- The counter raised for the pair (45_statistics R95). -/
def SizePair.maximum : SizePair → Counter
  | .received => .maxRxFrameSize
  | .written => .writeFrameMaxSize

theorem SizePair.minimum_ne_maximum (p q : SizePair) : p.minimum ≠ q.maximum := by
  cases p <;> cases q <;> decide

/-- One size recorded in a pair: `Lower` of its minimum, then `Raise` of its maximum (45_statistics R97). -/
def Stats.record (x : Stats) (p : SizePair) (v : Word) : Stats :=
  let lowered := x.set p.minimum (if v < x.get p.minimum then v else x.get p.minimum)
  lowered.set p.maximum (if lowered.get p.maximum < v then v else lowered.get p.maximum)

theorem toNat_get_record_minimum (x : Stats) (p : SizePair) (v : Word) :
    ((x.record p v).get p.minimum).toNat = min (x.get p.minimum).toNat v.toNat := by
  rw [Stats.record, Stats.get_set_other _ _ (p.minimum_ne_maximum p), Stats.get_set_same]
  split <;> bv_omega

theorem toNat_get_record_maximum (x : Stats) (p : SizePair) (v : Word) :
    ((x.record p v).get p.maximum).toNat = max (x.get p.maximum).toNat v.toNat := by
  rw [Stats.record, Stats.get_set_same, Stats.get_set_other _ _ (p.minimum_ne_maximum p).symm]
  split <;> bv_omega

theorem get_record_other {c : Counter} {p : SizePair} (hmin : c ≠ p.minimum) (hmax : c ≠ p.maximum) (x : Stats)
    (v : Word) : (x.record p v).get c = x.get c := by
  rw [Stats.record, Stats.get_set_other _ _ hmax, Stats.get_set_other _ _ hmin]

/-- Recording a size raises maxima only. -/
theorem get_record_le {c : Counter} {p : SizePair} (hmax : c ≠ p.maximum) (x : Stats) (v : Word) :
    (x.record p v).get c ≤ x.get c := by
  by_cases hmin : c = p.minimum
  · rw [BitVec.le_def, hmin, toNat_get_record_minimum]
    exact Nat.min_le_left ..
  · rw [get_record_other hmin hmax]
    exact BitVec.le_refl _

/-- Recording a size lowers minima only. -/
theorem le_get_record {c : Counter} {p : SizePair} (hmin : c ≠ p.minimum) (x : Stats) (v : Word) :
    x.get c ≤ (x.record p v).get c := by
  by_cases hmax : c = p.maximum
  · rw [BitVec.le_def, hmax, toNat_get_record_maximum]
    exact Nat.le_max_left ..
  · rw [get_record_other hmin hmax]
    exact BitVec.le_refl _

/-- The pair is at its reset values or in order (45_statistics R97). -/
def Stats.PairOrdered (x : Stats) (p : SizePair) : Prop :=
  (x.get p.minimum = 0xFFFFFFFF ∧ x.get p.maximum = 0) ∨ x.get p.minimum ≤ x.get p.maximum

theorem sizesOrdered_iff : x.SizesOrdered ↔ ∀ p, x.PairOrdered p :=
  ⟨fun ⟨hreceived, hwritten⟩ p => match p with | .received => hreceived | .written => hwritten,
    fun h => ⟨h .received, h .written⟩⟩

theorem Stats.PairOrdered.congr {p : SizePair} (h : x.PairOrdered p) (hmin : y.get p.minimum = x.get p.minimum)
    (hmax : y.get p.maximum = x.get p.maximum) : y.PairOrdered p := by
  rwa [Stats.PairOrdered, hmin, hmax]

/-- A pair that a size is recorded in is in order, since the size lies between the two; the other pair is left alone. -/
theorem Stats.PairOrdered.record {p : SizePair} (h : x.PairOrdered p) (q : SizePair) (v : Word) :
    (x.record q v).PairOrdered p := by
  have hself : (x.record p v).PairOrdered p := by
    right
    rw [BitVec.le_def, toNat_get_record_minimum, toNat_get_record_maximum]
    omega
  cases p <;> cases q
  case received.received | written.written => exact hself
  case received.written | written.received => exact h.congr rfl rfl

/-! ## The updates of a command -/

/-- The kind of a counter is *count*: it is neither a minimum nor a maximum (45_statistics R95). -/
def Counter.isCount : Counter → Bool
  | .minRxFrameSize => false
  | .maxRxFrameSize => false
  | .writeFrameMinSize => false
  | .writeFrameMaxSize => false
  | _ => true

theorem Counter.ne_minimum_of_isCount {c : Counter} (h : c.isCount = true) (p : SizePair) : p.minimum ≠ c := by
  rintro rfl
  cases p <;> cases h

theorem Counter.ne_maximum_of_isCount {c : Counter} (h : c.isCount = true) (p : SizePair) : p.maximum ≠ c := by
  rintro rfl
  cases p <;> cases h

/-- The statistics `x` after any number of the updates of 45_statistics R95: counts, and sizes recorded in a pair. -/
inductive Stats.Updated (m : CounterMode) (x : Stats) : Stats → Prop
  | refl : Updated m x x
  | count {y : Stats} (h : Updated m x y) (c : Counter) (a : Nat) (hc : c.isCount = true) :
      Updated m x (y.set c (addCounting m (y.get c) a))
  | record {y : Stats} (h : Updated m x y) (p : SizePair) (v : Word) : Updated m x (y.record p v)

namespace Stats.Updated

theorem verdict (h : x.Updated s.cfg.counterMode s.stats) {r : ScanVerdict} {u d : Nat} (hr : r.Fits u d) :
    x.Updated s.cfg.counterMode (r.apply s).stats := by
  cases r with
  | rejected n c e =>
    obtain ⟨-, hc⟩ := hr
    have hcount : c.isCount = true := by
      simp only [rejections, List.mem_cons, Prod.mk.injEq, List.not_mem_nil, or_false] at hc
      obtain ⟨-, rfl⟩ | ⟨-, rfl⟩ | ⟨-, rfl⟩ | ⟨-, rfl⟩ := hc <;> rfl
    exact h.count c 1 hcount
  | accepted n dlen => exact (h.record .received (word (dlen - 1))).count .rxFrameCount 1 rfl
  | noFrame => exact h

theorem copyOut (h : x.Updated s.cfg.counterMode s.stats) {wanted : Nat} {bytes : List Byte}
    (hcopy : s.copyOut wanted = .ok (bytes, t)) : x.Updated s.cfg.counterMode t.stats := by
  obtain ⟨-, -, rfl⟩ := copyOut_cases hcopy
  have hbytes := h.count .readByteCount (min wanted (s.stageSize.toNat - s.cursor.toNat)) rfl
  unfold State.afterCopy
  dsimp only
  split
  · exact hbytes.count .readOverreach 1 rfl
  · exact hbytes

theorem discard (h : x.Updated s.cfg.counterMode s.stats) (rem : Nat) :
    x.Updated s.cfg.counterMode (s.discard rem).stats := by
  unfold State.discard
  split
  · exact ((h.count .readDiscardFrameCount 1 rfl).count .readDiscardByteCount rem rfl).count .readByteCount rem rfl
  · exact h

/-- No minimum rises. -/
theorem minimum_le (h : x.Updated m y) (p : SizePair) : y.get p.minimum ≤ x.get p.minimum := by
  induction h with
  | refl => exact BitVec.le_refl _
  | count _ c a hc ih =>
    rw [Stats.get_set_other _ _ (Counter.ne_minimum_of_isCount hc p)]
    exact ih
  | record _ q v ih => exact BitVec.le_trans (get_record_le (p.minimum_ne_maximum q) _ v) ih

/-- No maximum falls, and no count falls where counters saturate. -/
theorem le_get (h : x.Updated m y) {c : Counter} (hmin : ∀ p : SizePair, c ≠ p.minimum)
    (hm : c.isCount = true → m = .saturate) : x.get c ≤ y.get c := by
  induction h with
  | refl => exact BitVec.le_refl _
  | count _ d a hd ih =>
    by_cases hcd : c = d
    · subst hcd
      rw [Stats.get_set_same, hm hd]
      exact BitVec.le_trans ih (le_addCounting_saturate _ a)
    · rw [Stats.get_set_other _ _ hcd]
      exact ih
  | record _ p v ih => exact BitVec.le_trans ih (le_get_record (hmin p) _ v)

theorem le_maximum (h : x.Updated m y) (p : SizePair) : x.get p.maximum ≤ y.get p.maximum :=
  h.le_get (fun q => (q.minimum_ne_maximum p).symm) fun hcount => (Counter.ne_maximum_of_isCount hcount p rfl).elim

theorem pairOrdered (h : x.Updated m y) {p : SizePair} (hx : x.PairOrdered p) : y.PairOrdered p := by
  induction h with
  | refl => exact hx
  | count _ c a hc ih =>
    exact ih.congr (Stats.get_set_other _ _ (Counter.ne_minimum_of_isCount hc p))
      (Stats.get_set_other _ _ (Counter.ne_maximum_of_isCount hc p))
  | record _ q v ih => exact ih.record q v

end Stats.Updated

/-- A command changes the statistics by the updates of 45_statistics R95 only. -/
theorem exec_updates {i : Instr} (h : exec i s = .next t) : s.stats.Updated s.cfg.counterMode t.stats := by
  cases i with
  | inject | beginWrite | stat =>
    rw [exec_frame h]
    exact .refl
  | beginRead =>
    obtain ⟨-, rfl⟩ | ⟨-, k, v, r, -, hr, rfl⟩ := execBeginRead_cases h
    · exact .refl
    · exact Stats.Updated.verdict (s := s.scanned k 0 v) (.count .refl .rxFalseStarts k rfl) hr
  | read n =>
    obtain ⟨-, rfl⟩ | ⟨-, bytes, u, hcopy, rfl⟩ := execRead_next h
    · exact .refl
    · rw [State.respond_stats]
      exact .copyOut .refl hcopy
  | readExact n =>
    obtain ⟨-, rfl⟩ | ⟨-, bytes, u, hcopy, rfl⟩ := execReadExact_next h
    · exact .refl
    · rw [State.respond_stats]
      exact .copyOut .refl hcopy
  | endRead =>
    obtain ⟨-, rfl⟩ | ⟨-, rem, -, rfl⟩ := execEndRead_next h
    · exact .refl
    · exact .discard .refl rem
  | write din =>
    obtain ⟨-, rfl⟩ | ⟨-, rfl⟩ := execWrite_next h
    · exact .refl
    · rw [foldl_escWrite_eq]
      exact .count .refl .writeByteCount din.length rfl
  | endWrite =>
    obtain ⟨-, rfl⟩ | ⟨-, rfl⟩ := execEndWrite_next h
    · exact .refl
    · rw [closeWire_eq]
      exact .record (.count (.count .refl .writeByteCount 1 rfl) .writeFrameCount 1 rfl) .written _

/-- Settles O43: a command only updates the statistics, and of the updates none raises a minimum or lowers a maximum. -/
theorem countersAreMonotone : Obligations.CountersAreMonotone := by
  intro s t i h
  have hupdated := exec_updates h
  refine ⟨hupdated.minimum_le .received, hupdated.minimum_le .written, hupdated.le_maximum .received,
    hupdated.le_maximum .written, fun hsaturate c hrx htx => ?_⟩
  have hmin : ∀ p : SizePair, c ≠ p.minimum
    | .received => hrx
    | .written => htx
  exact hupdated.le_get hmin fun _ => hsaturate

theorem reset_sizesOrdered : Stats.reset.SizesOrdered := ⟨.inl ⟨rfl, rfl⟩, .inl ⟨rfl, rfl⟩⟩

/-- Settles O44, by the cases of a step: idle, malformed transaction, command, reset. -/
theorem stepKeepsSizesOrdered : Obligations.StepKeepsSizesOrdered := by
  refine ⟨reset_sizesOrdered, fun s t h hstep => ?_⟩
  obtain ⟨-, rfl⟩ | ⟨tr, rest, e, -, -, rfl⟩ | ⟨tr, rest, i, -, -, he⟩ | ⟨p, rest, hp, -, rfl⟩ := step_next hstep
  · exact h
  · exact h
  · exact sizesOrdered_iff.mpr fun p => (exec_updates he).pairOrdered (sizesOrdered_iff.mp h p)
  · exact reset_sizesOrdered

end Sys2Proof.Machine
end

section
/-! PROOFS. From a legal state a step completes, unless the host presents a reset with an invalid configuration, which
is refused (60_exceptions R102, 70_reset R116). -/

namespace Sys2Proof.Machine

variable {s : State}

theorem performReset_of_valid {p : Params} (h : p.Valid) (s : State) :
    performReset p s = .next (s.applyReset { toParams := p, valid := h }) :=
  dif_pos h

/-- From a legal state every transaction, malformed or not, gives a next state. -/
theorem performCommand_completes (h : s.Inv) (tr : Transaction) : ∃ t, performCommand tr s = .next t := by
  cases hdecode : decode tr with
  | error e => exact ⟨_, performCommand_of_decode_error hdecode s⟩
  | ok i =>
    rw [performCommand_of_decode_ok hdecode]
    exact exec_completes h i

/-- A reset completes from every state; only the transactions need a legal one. -/
theorem step_completes (h : s.Inv) (hreset : s.ResetValid) : ∃ t, step s = .next t := by
  cases hhost : s.host with
  | nil => exact ⟨s, step_of_host_nil hhost⟩
  | cons e rest =>
    rw [step_of_host_cons hhost]
    cases e with
    | command tr => exact performCommand_completes (h.of_frame rfl) tr
    | reset p => exact ⟨_, performReset_of_valid (hreset p rest hhost) _⟩

theorem step_refuses_of_not_resetValid (h : ¬ s.ResetValid) : step s = .refused .invalidConfiguration := by
  simp only [State.ResetValid, not_forall] at h
  obtain ⟨p, rest, hhost, hinvalid⟩ := h
  exact invalidConfigurationIsRejected s p rest hhost hinvalid

/-- Settles O13: a step completes or is refused, as the reset presented is valid or not, so it never faults. -/
theorem legalStatesNeverFault : Obligations.LegalStatesNeverFault := by
  refine fun s h => ⟨fun f hfault => ?_, step_completes h⟩
  by_cases hreset : s.ResetValid
  · obtain ⟨t, ht⟩ := step_completes h hreset
    cases ht.symm.trans hfault
  · cases (step_refuses_of_not_resetValid hreset).symm.trans hfault

end Sys2Proof.Machine
end

section
/-! PROOFS. A reset request with a valid configuration constructs the block anew (70_reset R117). -/

namespace Sys2Proof.Machine

/-- The ports that a reset keeps are not among the registers, sessions and counters. -/
theorem applyReset_atResetValues (s : State) (cfg : Config) : AtResetValues (s.applyReset cfg) :=
  resetWith_atResetValues cfg

/-- A valid reset presented leaves the host's stream and is applied. -/
theorem step_of_valid_reset {s : State} {p : Params} {rest : List HostEvent} (hhost : s.host = .reset p :: rest)
    (hvalid : p.Valid) :
    step s = .next ({ s with host := rest }.applyReset { toParams := p, valid := hvalid }) :=
  calc step s = performReset p { s with host := rest } := step_of_host_cons hhost
    _ = .next _ := performReset_of_valid hvalid _

/-- Settles O8: the step applies the reset to the state without the item presented, and of that state only the ports
are kept. -/
theorem resetRequestConstructsTheBlock : Obligations.ResetRequestConstructsTheBlock :=
  fun _ _ _ hhost hvalid =>
    ⟨_, step_of_valid_reset hhost hvalid, rfl, applyReset_atResetValues _ _, rfl, rfl, rfl⟩

end Sys2Proof.Machine
end
